-- ==== Sys2Proof/Word.lean ====
section
/-! DEFINITION. The word types of the block: a byte (one buffer element, one BitVector element), and vectors of them. -/

namespace Sys2Proof

/-- One byte: an element of IN, OUT0 or OUT1, and one element of a BitVector (R30, D11). -/
abbrev Byte := BitVec 8

/-- The spec's BitVector (R7): a finite sequence of 8-bit elements, element 0 first. -/
abbrev BitVector := List Byte

end Sys2Proof
end

