-- ==== Sys2Proof/Syntax.lean ====
section
/-! DEFINITION. The commands of the block (the rows of the opcode table), and the events by which the host acts on it:
accesses to the host window and reset. -/

namespace Sys2Proof

/-- The four commands (R2, R72). Their operands are implicit registers and buffers, so no constructor has an
argument (R70, R71). -/
inductive Instr where
  /-- ENCODE_V2, code 0x01 (R136). -/
  | encodeV2
  /-- ENCODE_V2_BURSTS, code 0x02 (R138). -/
  | encodeV2Bursts
  /-- MANCHESTER_ENCODE, code 0x03 (R152). -/
  | manchesterEncode
  /-- MANCHESTER_DECODE, code 0x04 (R154). -/
  | manchesterDecode
deriving DecidableEq, Repr

/-- The widths of a host access: 1, 2, 4 or 8 bytes (R51). -/
inductive AccessSize where
  | one | two | four | eight
deriving DecidableEq, Repr

/-- The width of an access in bytes. -/
def AccessSize.bytes : AccessSize → Nat
  | .one => 1
  | .two => 2
  | .four => 4
  | .eight => 8

/-- An n-byte value, as MemWrite carries it and MemRead returns it (R51). -/
inductive HostValue where
  | b1 (v : BitVec 8)
  | b2 (v : BitVec 16)
  | b4 (v : BitVec 32)
  | b8 (v : BitVec 64)
deriving DecidableEq, Repr

/-- The width of a value. -/
def HostValue.size : HostValue → AccessSize
  | .b1 _ => .one
  | .b2 _ => .two
  | .b4 _ => .four
  | .b8 _ => .eight

/-- The unsigned number a value stands for. -/
def HostValue.toNat : HostValue → Nat
  | .b1 v => v.toNat
  | .b2 v => v.toNat
  | .b4 v => v.toNat
  | .b8 v => v.toNat

/-- A host access (R51): `read a n` is MemRead(a, n), `write a v` is MemWrite(a, size of v, v). -/
inductive HostAccess where
  | read (addr : Nat) (size : AccessSize)
  | write (addr : Nat) (value : HostValue)
deriving DecidableEq, Repr

/-- What can happen to the block from outside: an access of the host, or reset between two accesses (R191). -/
inductive HostEvent where
  | access (a : HostAccess)
  | reset
deriving DecidableEq, Repr

end Sys2Proof
end

