-- ==== Sys2Proof/WellFormed.lean ====
section
/-! DEFINITION. Well-formedness: of commands (no operand, so nothing to check), and of host accesses, which the spec
admits only in the forms of R51. The offsets and widths are written out here from R20, apart from the register map the
machine uses (Machine/Window.lean), so that the two can be compared. -/

namespace Sys2Proof

/-- A command has no operand field (R70), so every term of `Instr` is a command of the block. -/
def Instr.wellFormed : Instr → Bool
  | .encodeV2 => true
  | .encodeV2Bursts => true
  | .manchesterEncode => true
  | .manchesterDecode => true

/-- [a, a+n) is exactly one register of R20 (R51, first case). -/
def isWholeRegister (a n : Nat) : Bool :=
  (n == 1 && (a == 0x000 || a == 0x001 || a == 0x00C)) ||
  (n == 2 && (a == 0x002 || a == 0x004 || a == 0x006 || a == 0x008)) ||
  (n == 4 && a == 0x010) ||
  (n == 8 && a == 0x018)

/-- [a, a+n) is exactly one RW register of R20. -/
def isWholeRwRegister (a n : Nat) : Bool :=
  (n == 1 && (a == 0x000 || a == 0x00C)) ||
  (n == 2 && a == 0x004) ||
  (n == 4 && a == 0x010) ||
  (n == 8 && a == 0x018)

/-- The access is one that R51 admits. -/
def HostAccess.wellFormed : HostAccess → Bool
  | .read a n => isWholeRegister a n.bytes || (n.bytes == 1 && 0x100 ≤ a && a < 0x600)
  | .write a v => isWholeRwRegister a v.size.bytes || (v.size.bytes == 1 && 0x100 ≤ a && a < 0x200)

/-- Reset is always possible (R191); an access as R51 says. -/
def HostEvent.wellFormed : HostEvent → Bool
  | .access a => a.wellFormed
  | .reset => true

end Sys2Proof
end

