-- ==== Sys2Proof/Decode.lean ====
section
/-! DEFINITION. The command encoding (R70 to R74): the opcode table, the decoder over bytes, and the encoder. -/

namespace Sys2Proof

/-- Why a byte is no command. -/
inductive DecodeError where
  /-- A code of R73 (0x00, 0x05 to 0xFF). The machine reports ILLEGAL_COMMAND for it (R74). -/
  | reservedCode (code : Byte)
  /-- There is no byte to decode. -/
  | noByte
deriving DecidableEq, Repr

/-- A row of the opcode map (R72): the code must equal `pattern` under `mask`. -/
structure OpRow where
  pattern : Byte
  mask : Byte
  instr : Instr
deriving DecidableEq, Repr

/-- The opcode map of R72. -/
def opcodeTable : List OpRow :=
  [ ⟨0x01#8, 0xFF#8, .encodeV2⟩,
    ⟨0x02#8, 0xFF#8, .encodeV2Bursts⟩,
    ⟨0x03#8, 0xFF#8, .manchesterEncode⟩,
    ⟨0x04#8, 0xFF#8, .manchesterDecode⟩ ]

/-- The code satisfies the row's mask and pattern. -/
def OpRow.accepts (r : OpRow) (code : Byte) : Bool := code &&& r.mask == r.pattern

/-- The command of a full 8-bit code, if it has one (R70, R73). -/
def decodeCode (code : Byte) : Option Instr := (opcodeTable.find? (·.accepts code)).map (·.instr)

/-- Read one command from the front of a list of bytes: the command and the remaining bytes, or the reason why there
is none. Every command is one byte long (R70). -/
def decode : List Byte → Except DecodeError (Instr × List Byte)
  | [] => .error .noByte
  | code :: rest =>
    match decodeCode code with
    | some i => .ok (i, rest)
    | none => .error (.reservedCode code)

/-- The code of a command (R72). -/
def Instr.code : Instr → Byte
  | .encodeV2 => 0x01#8
  | .encodeV2Bursts => 0x02#8
  | .manchesterEncode => 0x03#8
  | .manchesterDecode => 0x04#8

/-- The bytes of a command: its code (R70). -/
def encode (i : Instr) : List Byte := [i.code]

/-- The first byte of an instruction whose bits, `nbits` of them, are `w` (bit 0 the least significant). Log 16. -/
def tableByte (nbits w : Nat) : Byte := BitVec.ofNat 8 (w % 2 ^ nbits)

/-- The command that the decoder reads from a table word: bits 7..0 are its one byte, and bits above `nbits` are 0. -/
def decodeTableWord (nbits w : Nat) : Option Instr :=
  match decode [tableByte nbits w] with
  | .ok (i, _) => some i
  | .error _ => none

end Sys2Proof
end

