-- ==== Sys2Proof/Machine/Bits.lean ====
section
/-! DEFINITION. BitVector primitives (R7, R8): bits as elements, slices, repetition, MSB-first rendering. -/

namespace Sys2Proof.Machine

/-- The element that holds a bit: 0x00 or 0x01 (R30). -/
def bit (b : Bool) : Byte := if b then 0x01#8 else 0x00#8

/-- `rep(b, n)`: n copies of b (R7). -/
def rep (b : Byte) (n : Nat) : BitVector := List.replicate n b

/-- The half-open slice `v[a..b)` (R7). -/
def slice {α : Type} (v : List α) (a b : Nat) : List α := (v.drop a).take (b - a)

/-- `msb_bits(x, n)`: element i is bit n-1-i of x (R8). -/
def msbBits (x n : Nat) : BitVector := (List.range n).map fun i => bit (x.testBit (n - 1 - i))

/-- `bv_to_nat(v)`: the vector read as a number, element 0 the most significant (R8). -/
def bvToNat (v : BitVector) : Nat := v.foldl (fun acc x => 2 * acc + x.toNat) 0

/-- The element is a bit (R81). The whole byte counts: 0x02 is no bit (conflict C4, D11, log 11). -/
def isBit (x : Byte) : Bool := x == 0x00#8 || x == 0x01#8

/-- Every element is a bit. -/
def allBits (v : BitVector) : Bool := v.all isBit

end Sys2Proof.Machine
end

