-- ==== Sys2Proof/Machine/FixedSplitter.lean ====
section
/-! DEFINITION. FixedCodeSplitter (R90 to R93): the fixed identifier as two halves. -/

namespace Sys2Proof.Machine

/-- The mode: long when FIXED_HI > 0 or FIXED_LO ≥ 2^40 (R90). -/
def isLong (fixedHigh : BitVec 8) (fixedLow : BitVec 64) : Bool :=
  decide (fixedHigh.toNat > 0) || decide (fixedLow.toNat ≥ 2 ^ 40)

/-- The short split: the low 40 bits of FIXED_LO in two halves of 20 (R91). -/
def splitShort (fixedLow : BitVec 64) : BitVector × BitVector :=
  let s := msbBits fixedLow.toNat 64
  (slice s 24 44, slice s 44 64)

/-- The long split: all 72 bits in two halves of 36 (R92). -/
def splitLong (fixedHigh : BitVec 8) (fixedLow : BitVec 64) : BitVector × BitVector :=
  let s := msbBits fixedHigh.toNat 8 ++ msbBits fixedLow.toNat 64
  (slice s 0 36, slice s 36 72)

/-- The result of FixedCodeSplitter: (half1, half2, long) (R93). -/
structure FixedHalves where
  half1 : BitVector
  half2 : BitVector
  long : Bool
deriving DecidableEq, Repr

/-- FixedCodeSplitter; it has no error (R93). -/
def fixedSplit (fixedHigh : BitVec 8) (fixedLow : BitVec 64) : FixedHalves :=
  let halves := if isLong fixedHigh fixedLow then splitLong fixedHigh fixedLow else splitShort fixedLow
  ⟨halves.1, halves.2, isLong fixedHigh fixedLow⟩

end Sys2Proof.Machine
end

