-- ==== Sys2Proof/Config.lean ====
section
/-! DEFINITION. What is fixed for the block: the buffer capacities, the types of the keyed ROM entries, and the
entries the spec leaves OPEN (R6, R118, R119, D14), held as constants without a value. -/

namespace Sys2Proof

/-- A permutation of {0, 1, 2}, named by its images in order (o0, o1, o2) (R118). -/
inductive Perm3 where
  | p012 | p021 | p102 | p120 | p201 | p210
deriving DecidableEq, Repr, Inhabited

/-- A 3-bit inversion mask; `vj` applies to output position j (R119). -/
structure InvMask where
  v0 : Bool
  v1 : Bool
  v2 : Bool
deriving DecidableEq, Repr, Inhabited

/-- The OPEN entries of ROM_ORDER, by key (R118). -/
structure OrderExt where
  k0000 : Perm3
  k0101 : Perm3
  k0110 : Perm3
  k1000 : Perm3
  k1010 : Perm3
deriving DecidableEq, Repr, Inhabited

/-- The OPEN entries of ROM_INV, by key (R119). -/
structure InvExt where
  k0010 : InvMask
  k0101 : InvMask
  k1000 : InvMask
  k1001 : InvMask
  k1010 : InvMask
deriving DecidableEq, Repr, Inhabited

/-- ORDER_EXT, a parameter of the block: any five permutations (R118, D14). Free value, log 5. -/
opaque Config.orderExt : OrderExt

/-- INV_EXT, a parameter of the block: any five masks (R119, D14). Free value, log 5. -/
opaque Config.invExt : InvExt

/-- Bits 5..0 of the ROM_ORDER word of a missing key (valid = 0): R82 gives them no value. Free value, log 12. -/
opaque Config.orderWordRest : Nat → BitVec 6

/-- Bits 2..0 of the ROM_INV word of a missing key (valid = 0): R82 gives them no value. Free value, log 12. -/
opaque Config.invWordRest : Nat → BitVec 3

/-- IN_CAP, the number of elements of IN (R6, D12). -/
def Config.inCap : Nat := 256

/-- OUT_CAP, the number of elements of each of OUT0 and OUT1 (R6, D12). -/
def Config.outCap : Nat := 512

end Sys2Proof
end

