-- ==== Sys2Proof/Machine/State.lean ====
section
/-! DEFINITION. The state of the block (R20), the reasons a step can stop, and the state after reset (R35). -/

namespace Sys2Proof.Machine

/-- The block raises no fault that stops it: an error is reported in ERR_CODE and ERR_POS and the block goes on (R171).
So there is no constructor (log 7). -/
inductive Fault where
deriving DecidableEq, Repr

/-- Why the model gives no meaning to a step. All but the first are accesses that R51 does not admit; the spec gives
them no effect ("a model refuses it"). Safe: a real block might accept them (D4). Log 7. -/
inductive Refusal where
  /-- Raised by an arm of `exec` whose command has no meaning yet. Safe. -/
  | notModelled (mnemonic : String)
  /-- Raised by a host access that reaches beyond offset 0x5FF (R50, R51). Safe. -/
  | outsideWindow (addr : Nat)
  /-- Raised by a host access to a byte range that holds an unmapped byte of the window (R50, R51). Safe. -/
  | unmappedByte (addr : Nat)
  /-- Raised by a host write to a whole RO register or to an element of OUT0 or OUT1 (R51). Safe. -/
  | readOnlyWrite (addr : Nat)
  /-- Raised by a host access to a part of one register (R51). Safe. -/
  | partialRegister (addr : Nat)
  /-- Raised by a host access that spans two or more registers or buffer elements (R51). Safe. -/
  | spansTargets (addr : Nat)
deriving DecidableEq, Repr

/-- The error kinds of R170 (code 0x00, no error, is not a kind). -/
inductive ErrorKind where
  | rollingOutOfRange
  | unknownOrderIndicator
  | unknownInversionIndicator
  | manchesterInvalidBit
  | manchesterMisalignedInput
  | manchesterInvalidTransition
  | illegalCommand
  | lengthOutOfRange
deriving DecidableEq, Repr

/-- The abort of a command: `raise E(pos)` (R9, R171). -/
structure CommandError where
  kind : ErrorKind
  pos : Nat
deriving DecidableEq, Repr

/-- The buffers' bytes, by window offset, in canonical form: offsets strictly rising, each inside a buffer, and no
entry equal to what an unlisted offset reads as, which is 0x00, the reset value of R20 (log 9). -/
abbrev Memory := List Host.Cell

/-- Everything the spec gives the block (R20), and the model's two lists on the host's side (log 1). -/
structure State where
  /-- CMD: the last command code written (R22). -/
  cmd : BitVec 8
  /-- ERR_CODE: the error kind of the last command, 0 for none (R23). -/
  errCode : BitVec 8
  /-- ERR_POS: the position of the last error (R24). -/
  errPos : BitVec 16
  /-- IN_LEN: the number of valid elements of IN (R25). -/
  inLen : BitVec 16
  /-- OUT0_LEN: the number of valid elements of OUT0 (R26). -/
  out0Len : BitVec 16
  /-- OUT1_LEN: the number of valid elements of OUT1 (R26). -/
  out1Len : BitVec 16
  /-- FIXED_HI: bits 71..64 of the fixed identifier (R27). -/
  fixedHi : BitVec 8
  /-- ROLLING: the rolling code operand (R29). -/
  rolling : BitVec 32
  /-- FIXED_LO: bits 63..0 of the fixed identifier (R28). -/
  fixedLo : BitVec 64
  /-- IN, OUT0 and OUT1 (R30), at their window offsets. -/
  mem : Memory
  /-- The model's own: host events that have not yet taken effect, oldest first (R57, log 1). -/
  pending : List HostEvent
  /-- The model's own: the values that MemRead has returned to the host, oldest first (log 1). -/
  returned : List HostValue
deriving DecidableEq, Repr

/-- The state after reset: every register and every buffer element is zero (R35, R190), and nothing is pending. -/
def State.reset : State where
  cmd := 0x00#8
  errCode := 0x00#8
  errPos := 0x0000#16
  inLen := 0x0000#16
  out0Len := 0x0000#16
  out1Len := 0x0000#16
  fixedHi := 0x00#8
  rolling := 0x00000000#32
  fixedLo := 0x0000000000000000#64
  mem := []
  pending := []
  returned := []

end Sys2Proof.Machine
end

