-- ==== Sys2Proof/Machine/Flags.lean ====
section
/-! DEFINITION. The block has no flags (R33); its status is ERR_CODE and ERR_POS. The codes of the error kinds (R170),
and the status that a command without error writes (R23, R24). -/

namespace Sys2Proof.Machine

/-- The ERR_CODE of an error kind (R170). -/
def ErrorKind.code : ErrorKind → BitVec 8
  | .rollingOutOfRange => 0x01#8
  | .unknownOrderIndicator => 0x02#8
  | .unknownInversionIndicator => 0x03#8
  | .manchesterInvalidBit => 0x04#8
  | .manchesterMisalignedInput => 0x05#8
  | .manchesterInvalidTransition => 0x06#8
  | .illegalCommand => 0x07#8
  | .lengthOutOfRange => 0x08#8

/-- The status of a command that completes without error: ERR_CODE = 0 and ERR_POS = 0 (R23, R24). -/
def State.clearError (s : State) : State := { s with errCode := 0x00#8, errPos := 0x0000#16 }

end Sys2Proof.Machine
end

