-- ==== Sys2Proof/Machine/Ops.lean ====
section
/-! DEFINITION. The shared operations: reading and writing buffer bytes, reporting an error (the block's "trap
entry", R171), and finishing a command that wrote one or two output vectors. The block has no return from an error
(R174), so there is no operation for it. -/

namespace Sys2Proof.Machine

/-- The window offset of IN[0] (R20). -/
abbrev inBase : Nat := 0x100

/-- The window offset of OUT0[0] (R20). -/
abbrev out0Base : Nat := 0x200

/-- The window offset of OUT1[0] (R20). -/
abbrev out1Base : Nat := 0x400

/-- One past the last offset of the window (R50). -/
abbrev windowEnd : Nat := 0x600

/-- The byte at a buffer offset; an unlisted offset reads 0x00 (R20, log 9). -/
def Memory.read : Memory → Nat → Byte
  | [], _ => 0x00#8
  | (b, x) :: rest, a => if a = b then x else Memory.read rest a

/-- Write the byte at a buffer offset, keeping the canonical form: writing 0x00 removes the entry. -/
def Memory.write : Memory → Nat → Byte → Memory
  | [], a, v => if v = 0x00#8 then [] else [(a, v)]
  | (b, x) :: rest, a, v =>
    if a < b then (if v = 0x00#8 then (b, x) :: rest else (a, v) :: (b, x) :: rest)
    else if a = b then (if v = 0x00#8 then rest else (a, v) :: rest)
    else (b, x) :: Memory.write rest a v

/-- The elements at offsets base, base+1, …, base+n-1 (R53). -/
def Memory.readVec (m : Memory) (base n : Nat) : BitVector := (List.range n).map fun i => Memory.read m (base + i)

/-- Write the elements of a vector at offsets base, base+1, … in order (R53). -/
def Memory.writeVec (m : Memory) (base : Nat) : BitVector → Memory
  | [] => m
  | x :: v => Memory.writeVec (Memory.write m base x) (base + 1) v

/-- The canonical form, from offset `lo` on: offsets rise strictly from `lo`, stay inside the buffers, and no entry is
0x00. -/
def Memory.wfFrom : Nat → Memory → Bool
  | _, [] => true
  | lo, (a, x) :: rest => decide (lo ≤ a) && decide (a < windowEnd) && decide (x ≠ 0x00#8) && Memory.wfFrom (a + 1) rest

/-- The canonical form of the buffers' bytes. -/
def Memory.wf (m : Memory) : Bool := Memory.wfFrom inBase m

/-- `raise E(pos)`: ERR_CODE and ERR_POS are written, nothing else (R171). -/
def State.raise (s : State) (e : CommandError) : State :=
  { s with errCode := e.kind.code, errPos := BitVec.ofNat 16 e.pos }

/-- The effect of a successful command with one output vector: OUT0 and OUT0_LEN (R152, R154, D10). -/
def State.putOut0 (s : State) (v : BitVector) : State :=
  { s with
    mem := s.mem.writeVec out0Base v
    out0Len := BitVec.ofNat 16 v.length }

/-- The effect of a successful command with two output vectors of one length: OUT0, OUT1 and both length registers
(R136, R138). -/
def State.putOutPair (s : State) (v0 v1 : BitVector) : State :=
  { s with
    mem := (s.mem.writeVec out0Base v0).writeVec out1Base v1
    out0Len := BitVec.ofNat 16 v0.length
    out1Len := BitVec.ofNat 16 v0.length }

/-- Complete a command whose result is one vector or an error. -/
def State.finishSingle (s : State) : Except CommandError BitVector → State
  | .ok v => (s.putOut0 v).clearError
  | .error e => s.raise e

/-- Complete a command whose result is two vectors or an error. -/
def State.finishPair (s : State) : Except CommandError (BitVector × BitVector) → State
  | .ok (v0, v1) => (s.putOutPair v0 v1).clearError
  | .error e => s.raise e

end Sys2Proof.Machine
end

