-- ==== Sys2Proof/Machine/Operands.lean ====
section
/-! DEFINITION. The implicit operands of the commands, each taken exactly as stored (R71). The ENCODE commands read the
registers FIXED_HI, FIXED_LO and ROLLING directly; the Manchester commands read a vector through IN_LEN. -/

namespace Sys2Proof.Machine

/-- The fixed identifier F = FIXED_HI·2^64 + FIXED_LO (R28, R76). -/
def identifier (fixedHigh : BitVec 8) (fixedLow : BitVec 64) : Nat := fixedHigh.toNat * 2 ^ 64 + fixedLow.toNat

/-- The operand of a Manchester command: IN[0..IN_LEN), or LENGTH_OUT_OF_RANGE at position 0 when IN_LEN > IN_CAP
(R152, R154). -/
def State.inputVector (s : State) : Except CommandError BitVector :=
  if s.inLen.toNat > Config.inCap then .error ⟨.lengthOutOfRange, 0⟩
  else .ok (s.mem.readVec inBase s.inLen.toNat)

end Sys2Proof.Machine
end

