-- ==== Sys2Proof/Machine/Manchester.lean ====
section
/-! DEFINITION. The Manchester line coder and decoder (R150, R151, R81), and the commands MANCHESTER_ENCODE (R152) and
MANCHESTER_DECODE (R154). -/

namespace Sys2Proof.Machine

/-- The loop of R150 from element m on: 0 gives (1,0), 1 gives (0,1), any other byte fails at its own index. -/
def manchesterEncodeFrom (m : Nat) : BitVector → Except CommandError BitVector
  | [] => .ok []
  | x :: v =>
    if x = 0x00#8 then (manchesterEncodeFrom (m + 1) v).map ([0x01#8, 0x00#8] ++ ·)
    else if x = 0x01#8 then (manchesterEncodeFrom (m + 1) v).map ([0x00#8, 0x01#8] ++ ·)
    else .error ⟨.manchesterInvalidBit, m⟩

/-- manchesterEncode (R150). -/
def manchesterEncode (v : BitVector) : Except CommandError BitVector := manchesterEncodeFrom 0 v

/-- The loop of R151 from element index `pos` on, two elements at a time. A single last element is not reached: the
length is even (R151 checks it first). -/
def manchesterDecodeFrom (pos : Nat) : BitVector → Except CommandError BitVector
  | a :: c :: w =>
    if !isBit a || !isBit c then .error ⟨.manchesterInvalidBit, pos⟩
    else if a = c then .error ⟨.manchesterInvalidTransition, pos⟩
    else (manchesterDecodeFrom (pos + 2) w).map ([if a = 0x01#8 ∧ c = 0x00#8 then 0x00#8 else 0x01#8] ++ ·)
  | [_] => .error ⟨.manchesterMisalignedInput, 0⟩
  | [] => .ok []

/-- manchesterDecode (R151): the length check comes before any pair is read. -/
def manchesterDecode (w : BitVector) : Except CommandError BitVector :=
  if w.length % 2 = 1 then .error ⟨.manchesterMisalignedInput, 0⟩ else manchesterDecodeFrom 0 w

/-- MANCHESTER_ENCODE (R152). -/
def execManchesterEncode (s : State) : Host.Outcome State Fault Refusal :=
  .next (s.finishSingle (s.inputVector.bind manchesterEncode))

/-- MANCHESTER_DECODE (R154). -/
def execManchesterDecode (s : State) : Host.Outcome State Fault Refusal :=
  .next (s.finishSingle (s.inputVector.bind manchesterDecode))

end Sys2Proof.Machine
end

