-- ==== Sys2Proof/Machine/Rom.lean ====
section
/-! DEFINITION. The read-only constants (R21): SYNC_ROM (R31) and the keyed tables ROM_ORDER and ROM_INV (R118, R119),
with their word formats (R82). The OPEN entries are arguments: the machine passes Config.orderExt and Config.invExt
(log 5). No command writes them. -/

namespace Sys2Proof.Machine

/-- SYNC_ROM: sixteen 0 elements, then four 1 elements (R31). -/
def syncRom : BitVector := rep 0x00#8 16 ++ rep 0x01#8 4

/-- The images (o0, o1, o2) of a permutation (R118). -/
def permImages : Perm3 → Fin 3 × Fin 3 × Fin 3
  | .p012 => (0, 1, 2)
  | .p021 => (0, 2, 1)
  | .p102 => (1, 0, 2)
  | .p120 => (1, 2, 0)
  | .p201 => (2, 0, 1)
  | .p210 => (2, 1, 0)

/-- ROM_ORDER(key): a permutation, or none for a missing key (R118). -/
def romOrder (ext : OrderExt) : Nat → Option Perm3
  | 0 => some ext.k0000
  | 1 => some .p201
  | 2 => some .p012
  | 4 => some .p120
  | 5 => some ext.k0101
  | 6 => some ext.k0110
  | 8 => some ext.k1000
  | 9 => some .p210
  | 10 => some ext.k1010
  | _ => none

/-- ROM_INV(key): a mask, or none for a missing key (R119). -/
def romInv (ext : InvExt) : Nat → Option InvMask
  | 0 => some ⟨true, true, false⟩
  | 1 => some ⟨false, true, false⟩
  | 2 => some ext.k0010
  | 4 => some ⟨true, true, true⟩
  | 5 => some ext.k0101
  | 6 => some ⟨false, true, true⟩
  | 8 => some ext.k1000
  | 9 => some ext.k1001
  | 10 => some ext.k1010
  | _ => none

/-- The 7-bit ROM_ORDER word of a key: valid[6], o0[5:4], o1[3:2], o2[1:0] (R82). A missing key has valid = 0, and its
other bits are free (log 12). -/
def orderWord (ext : OrderExt) (key : Nat) : BitVec 7 :=
  match romOrder ext key with
  | some p =>
    1#1 ++ BitVec.ofNat 2 (permImages p).1.val ++ BitVec.ofNat 2 (permImages p).2.1.val
      ++ BitVec.ofNat 2 (permImages p).2.2.val
  | none => 0#1 ++ Config.orderWordRest key

/-- The 4-bit ROM_INV word of a key: valid[3], v0[2], v1[1], v2[0] (R82). A missing key has valid = 0, and its other
bits are free (log 12). -/
def invWord (ext : InvExt) (key : Nat) : BitVec 4 :=
  match romInv ext key with
  | some m => 1#1 ++ BitVec.ofBool m.v0 ++ BitVec.ofBool m.v1 ++ BitVec.ofBool m.v2
  | none => 0#1 ++ Config.invWordRest key

end Sys2Proof.Machine
end

