-- ==== Sys2Proof/Machine/PacketAssembler.lean ====
section
/-! DEFINITION. PacketAssembler (R115 to R123): one fixed half and one rolling half become one packet. -/

namespace Sys2Proof.Machine

/-- The part length P (R115). -/
def partLength (long : Bool) : Nat := if long then 18 else 10

/-- The three parts of a packet. -/
structure Parts where
  part0 : BitVector
  part1 : BitVector
  part2 : BitVector
deriving DecidableEq, Repr

/-- The part of an index. -/
def Parts.get (ps : Parts) : Fin 3 → BitVector
  | 0 => ps.part0
  | 1 => ps.part1
  | 2 => ps.part2

/-- part[2] before the overwrite: rolling[8 .. min(8+P, 18)), padded on the right with 0 to P elements (R116). -/
def paddedPart (rolling : BitVector) (p : Nat) : BitVector :=
  slice rolling 8 (min (8 + p) 18) ++ rep 0x00#8 (8 + p - min (8 + p) 18)

/-- The overwrite of long mode: part[2][m] becomes rolling[m-10], for m = 10 … P-1 in order (R116). -/
def overwritePart (rolling part : BitVector) (p : Nat) : BitVector :=
  (List.range' 10 (p - 10)).foldl (fun v m => v.set m (rolling.getD (m - 10) 0x00#8)) part

/-- The parts (R116). -/
def makeParts (fixed rolling : BitVector) (long : Bool) : Parts :=
  let p := partLength long
  { part0 := slice fixed 0 p
    part1 := slice fixed p (2 * p)
    part2 := if long then overwritePart rolling (paddedPart rolling p) p else paddedPart rolling p }

/-- The order key: rolling[0..4), read MSB first (R117). -/
def orderKey (rolling : BitVector) : Nat := bvToNat (slice rolling 0 4)

/-- The inversion key: rolling[4..8), read MSB first (R117). -/
def inversionKey (rolling : BitVector) : Nat := bvToNat (slice rolling 4 8)

/-- Permutation: output position j takes input part o_j (R121). -/
def permute (order : Perm3) (ps : Parts) : Parts :=
  { part0 := ps.get (permImages order).1
    part1 := ps.get (permImages order).2.1
    part2 := ps.get (permImages order).2.2 }

/-- The body's elements of index i, one of each permuted part, inverted where the mask says so (R122). -/
def emitTriple (ps : Parts) (inv : InvMask) (i : Nat) : BitVector :=
  [ ps.part0.getD i 0x00#8 ^^^ bit inv.v0,
    ps.part1.getD i 0x00#8 ^^^ bit inv.v1,
    ps.part2.getD i 0x00#8 ^^^ bit inv.v2 ]

/-- Emission: the two header bits, rolling[0..8), and the interleaved body (R122). -/
def emitPacket (rolling : BitVector) (long : Bool) (ps : Parts) (inv : InvMask) : BitVector :=
  [bit false] ++ [bit long] ++ slice rolling 0 8 ++ (List.range (partLength long)).flatMap (emitTriple ps inv)

/-- PacketAssembler (R123): the order lookup first, then the inversion lookup, each failing closed (R120). -/
def encodeHalf (orderExt : OrderExt) (invExt : InvExt) (fixed rolling : BitVector) (long : Bool) :
    Except ErrorKind BitVector :=
  match romOrder orderExt (orderKey rolling) with
  | none => .error .unknownOrderIndicator
  | some order =>
    match romInv invExt (inversionKey rolling) with
    | none => .error .unknownInversionIndicator
    | some inv => .ok (emitPacket rolling long (permute order (makeParts fixed rolling long)) inv)

end Sys2Proof.Machine
end

