-- ==== Sys2Proof/Machine/RollingTransform.lean ====
section
/-! DEFINITION. RollingCodeTransformer (R100 to R105): range check, 28-bit reversal, base-3 digits, two halves. -/

namespace Sys2Proof.Machine

/-- A base-3 digit (R11). -/
abbrev Trit := Fin 3

/-- Bit reversal over 28 bits: bit b goes to bit 27-b (R101). -/
def reverse28 (r : Nat) : Nat :=
  (List.range 28).foldl (fun rev b => rev ||| ((r.testBit b).toNat <<< (27 - b))) 0

/-- The first k base-3 digits of v, least significant first (the loop of R102). -/
def tritDigits : Nat → Nat → List Trit
  | 0, _ => []
  | k + 1, v => ⟨v % 3, Nat.mod_lt v (by decide)⟩ :: tritDigits k (v / 3)

/-- The ternary conversion: 18 trits, t[0] the least significant (R102). -/
def trits (rev : Nat) : List Trit := tritDigits 18 rev

/-- Trit expansion: [t >> 1, t and 1] (R103). -/
def sym (t : Trit) : BitVector := [BitVec.ofNat 8 (t.val >>> 1), BitVec.ofNat 8 (t.val &&& 1)]

/-- The symbols of the trits t[a..b), the piece reversed (R104, conflict C1). -/
def piece (t : List Trit) (a b : Nat) : BitVector := (slice t a b).reverse.flatMap sym

/-- halfA: pieces [0:4], [8:12], [16:17], each reversed (R104, conflict C1). -/
def halfA (t : List Trit) : BitVector := piece t 0 4 ++ piece t 8 12 ++ piece t 16 17

/-- halfB: pieces [4:8], [12:16], [17:18], each reversed (R104, conflict C1). -/
def halfB (t : List Trit) : BitVector := piece t 4 8 ++ piece t 12 16 ++ piece t 17 18

/-- RollingCodeTransformer: the two rolling halves, or ROLLING_OUT_OF_RANGE before anything else (R100, R105). -/
def rollingTransform (rolling : BitVec 32) : Except ErrorKind (BitVector × BitVector) :=
  if rolling.toNat ≥ 2 ^ 28 then .error .rollingOutOfRange
  else
    let t := trits (reverse28 rolling.toNat)
    .ok (halfA t, halfB t)

end Sys2Proof.Machine
end

