-- ==== Sys2Proof/Machine/EncodeCommands.lean ====
section
/-! DEFINITION. EncodeV2 (R135), BurstBuilder (R137), and the commands ENCODE_V2 (R136) and ENCODE_V2_BURSTS (R138). -/

namespace Sys2Proof.Machine

/-- An error kind that a sub-function returns, at the position its caller gives it (R10, R172). -/
def atPosition {α : Type} (pos : Nat) : Except ErrorKind α → Except CommandError α
  | .ok a => .ok a
  | .error kind => .error ⟨kind, pos⟩

/-- EncodeV2 as a function (R135): the first error in this order, or the two packets. -/
def encodeV2 (orderExt : OrderExt) (invExt : InvExt) (fixedHigh : BitVec 8) (fixedLow : BitVec 64)
    (rolling : BitVec 32) : Except CommandError (BitVector × BitVector) :=
  let f := fixedSplit fixedHigh fixedLow
  (atPosition 0 (rollingTransform rolling)).bind fun h =>
  (atPosition 0 (encodeHalf orderExt invExt f.half1 h.1 f.long)).bind fun p0 =>
  (atPosition 1 (encodeHalf orderExt invExt f.half2 h.2 f.long)).bind fun p1 =>
  .ok (p0, p1)

/-- BurstBuilder (R137, R80): the sync header, a 0 bit, the burst index and the packet, all Manchester-coded. -/
def burst (index : Bool) (packet : BitVector) : Except CommandError BitVector :=
  manchesterEncode (syncRom ++ [bit false] ++ [bit index] ++ packet)

/-- The two bursts of a message, or the error of EncodeV2 (R138). -/
def encodeV2Bursts (orderExt : OrderExt) (invExt : InvExt) (fixedHigh : BitVec 8) (fixedLow : BitVec 64)
    (rolling : BitVec 32) : Except CommandError (BitVector × BitVector) :=
  (encodeV2 orderExt invExt fixedHigh fixedLow rolling).bind fun p =>
  (burst false p.1).bind fun b0 =>
  (burst true p.2).bind fun b1 =>
  .ok (b0, b1)

/-- ENCODE_V2 (R136). -/
def execEncodeV2 (s : State) : Host.Outcome State Fault Refusal :=
  .next (s.finishPair (encodeV2 Config.orderExt Config.invExt s.fixedHi s.fixedLo s.rolling))

/-- ENCODE_V2_BURSTS (R138). -/
def execEncodeV2Bursts (s : State) : Host.Outcome State Fault Refusal :=
  .next (s.finishPair (encodeV2Bursts Config.orderExt Config.invExt s.fixedHi s.fixedLo s.rolling))

end Sys2Proof.Machine
end

