-- ==== Sys2Proof/Machine/Dispatch.lean ====
section
/-! DEFINITION. The dispatch: one arm per command. -/

namespace Sys2Proof.Machine

def exec (i : Instr) (s : State) : Host.Outcome State Fault Refusal :=
  match i with
  | .encodeV2 => Sys2Proof.Machine.execEncodeV2 s
  | .encodeV2Bursts => Sys2Proof.Machine.execEncodeV2Bursts s
  | .manchesterEncode => Sys2Proof.Machine.execManchesterEncode s
  | .manchesterDecode => Sys2Proof.Machine.execManchesterDecode s

end Sys2Proof.Machine
end

