-- ==== Sys2Proof/Machine/Window.lean ====
section
/-! DEFINITION. The host window (R20, R50 to R55): the register map, what an access addresses, the value a read
returns, the window byte by byte, and the reason why an access is not admitted. -/

namespace Sys2Proof.Machine

/-- The registers of the window (R20). -/
inductive Reg where
  | cmd | errCode | errPos | inLen | out0Len | out1Len | fixedHi | rolling | fixedLo
deriving DecidableEq, Repr

/-- All registers, in the order of R20's table. -/
def Reg.all : List Reg :=
  [.cmd, .errCode, .errPos, .inLen, .out0Len, .out1Len, .fixedHi, .rolling, .fixedLo]

/-- The register's byte offset (R20). -/
def Reg.offset : Reg → Nat
  | .cmd => 0x000
  | .errCode => 0x001
  | .errPos => 0x002
  | .inLen => 0x004
  | .out0Len => 0x006
  | .out1Len => 0x008
  | .fixedHi => 0x00C
  | .rolling => 0x010
  | .fixedLo => 0x018

/-- The register's width (R20). -/
def Reg.size : Reg → AccessSize
  | .cmd => .one
  | .errCode => .one
  | .errPos => .two
  | .inLen => .two
  | .out0Len => .two
  | .out1Len => .two
  | .fixedHi => .one
  | .rolling => .four
  | .fixedLo => .eight

/-- The offset is one of the register's bytes. -/
def Reg.holds (r : Reg) (a : Nat) : Bool := decide (r.offset ≤ a) && decide (a < r.offset + r.size.bytes)

/-- What an admitted access addresses: a whole register, or one element of a buffer (R51). -/
inductive Target where
  | reg (r : Reg)
  | input (i : Nat)
  | output0 (i : Nat)
  | output1 (i : Nat)
deriving DecidableEq, Repr

/-- The buffer element at an offset (R20, R53). -/
def elementAt (a : Nat) : Option Target :=
  if a < inBase then none
  else if a < out0Base then some (.input (a - inBase))
  else if a < out1Base then some (.output0 (a - out0Base))
  else if a < windowEnd then some (.output1 (a - out1Base))
  else none

/-- The target of an access of n bytes at a, if R51 admits one: exactly one register, or n = 1 inside a buffer. -/
def targetAt (a : Nat) (n : AccessSize) : Option Target :=
  match Reg.all.find? (fun r => decide (r.offset = a) && decide (r.size = n)) with
  | some r => some (.reg r)
  | none => if n = .one then elementAt a else none

/-- The value of a register (R56: the whole register). -/
def State.readReg (s : State) : Reg → HostValue
  | .cmd => .b1 s.cmd
  | .errCode => .b1 s.errCode
  | .errPos => .b2 s.errPos
  | .inLen => .b2 s.inLen
  | .out0Len => .b2 s.out0Len
  | .out1Len => .b2 s.out1Len
  | .fixedHi => .b1 s.fixedHi
  | .rolling => .b4 s.rolling
  | .fixedLo => .b8 s.fixedLo

/-- The value of a target. -/
def State.readTarget (s : State) : Target → HostValue
  | .reg r => s.readReg r
  | .input i => .b1 (s.mem.read (inBase + i))
  | .output0 i => .b1 (s.mem.read (out0Base + i))
  | .output1 i => .b1 (s.mem.read (out1Base + i))

/-- Byte k of a multi-byte value, little-endian: bits 8k+7..8k (R52). -/
def valueByte (v : HostValue) (k : Nat) : Byte := BitVec.ofNat 8 (v.toNat / 2 ^ (8 * k))

/-- The byte that a window offset names, if it is mapped (R50, R52, R53). -/
def State.windowByte (s : State) (a : Nat) : Option Byte :=
  match Reg.all.find? (·.holds a) with
  | some r => some (valueByte (s.readReg r) (a - r.offset))
  | none => if inBase ≤ a ∧ a < windowEnd then some (s.mem.read a) else none

/-- The offset is mapped: a byte of a register or of a buffer (R50). -/
def isMapped (a : Nat) : Bool := Reg.all.any (·.holds a) || (decide (inBase ≤ a) && decide (a < windowEnd))

/-- Why an access of n bytes at a addresses no target (R51, log 7). -/
def refusalFor (a n : Nat) : Refusal :=
  if a + n > windowEnd then .outsideWindow a
  else if !(List.range n).all (fun k => isMapped (a + k)) then .unmappedByte a
  else if Reg.all.any (fun r => r.holds a && r.holds (a + n - 1)) then .partialRegister a
  else .spansTargets a

end Sys2Proof.Machine
end

