-- ==== Sys2Proof/Machine/Access.lean ====
section
/-! DEFINITION. What a host event does: MemRead, MemWrite (R51, R56), the command that a CMD write starts (R22, R74),
and reset (R190, R191). -/

namespace Sys2Proof.Machine

/-- A write of a code to CMD: the code is stored, and then the command it selects is performed (R22). A reserved code
reports ILLEGAL_COMMAND at position 0 (R74). -/
def commandWrite (code : Byte) (s : State) : Host.Outcome State Fault Refusal :=
  let s' := { s with cmd := code }
  match decode [code] with
  | .ok (i, _) => exec i s'
  | .error _ => .next (s'.raise ⟨.illegalCommand, 0⟩)

/-- MemRead(a, n): the value goes to the host; nothing else changes (R51, R56). -/
def hostRead (a : Nat) (n : AccessSize) (s : State) : Host.Outcome State Fault Refusal :=
  match targetAt a n with
  | some t => .next { s with returned := s.returned ++ [s.readTarget t] }
  | none => .refused (refusalFor a n.bytes)

/-- MemWrite(a, n, v): CMD starts a command, another RW target stores the value (R51, R56). -/
def hostWrite (a : Nat) (v : HostValue) (s : State) : Host.Outcome State Fault Refusal :=
  match targetAt a v.size, v with
  | some (.reg .cmd), .b1 code => commandWrite code s
  | some (.reg .inLen), .b2 x => .next { s with inLen := x }
  | some (.reg .fixedHi), .b1 x => .next { s with fixedHi := x }
  | some (.reg .rolling), .b4 x => .next { s with rolling := x }
  | some (.reg .fixedLo), .b8 x => .next { s with fixedLo := x }
  | some (.input i), .b1 x => .next { s with mem := s.mem.write (inBase + i) x }
  | some _, _ => .refused (.readOnlyWrite a)
  | none, _ => .refused (refusalFor a v.size.bytes)

/-- Reset: every register and buffer element takes its reset value (R35, R190). The host's lists are not the block's,
and stay (log 3). -/
def State.resetBlock (s : State) : State := { State.reset with pending := s.pending, returned := s.returned }

/-- The effect of one host event. -/
def hostEvent (e : HostEvent) (s : State) : Host.Outcome State Fault Refusal :=
  match e with
  | .access (.read a n) => hostRead a n s
  | .access (.write a v) => hostWrite a v s
  | .reset => .next s.resetBlock

/-- With no event pending the block does nothing: it starts nothing on its own (R33, R59). Log 2. -/
def idle (s : State) : Host.Outcome State Fault Refusal := .next s

/-- Put a MemWrite of a code to CMD before everything pending (log 4). -/
def State.withCommandWrite (s : State) (code : Byte) : State :=
  { s with pending := .access (.write Reg.cmd.offset (.b1 code)) :: s.pending }

end Sys2Proof.Machine
end

