-- ==== Sys2Proof/Machine/Step.lean ====
section
/-! DEFINITION. One step: the oldest pending host event takes effect (R57). -/

namespace Sys2Proof.Machine

/-- The oldest pending host event leaves the list and takes effect as one atomic step (R5, R57); with none pending the
block does nothing (log 2). -/
def step (s : State) : Host.Outcome State Fault Refusal :=
  match s.pending with
  | [] => idle s
  | e :: rest => hostEvent e { s with pending := rest }

/-- The block fetches no instruction (R59): the command byte of the table word is written to CMD by the very next host
event (log 4, log 16). -/
def State.withFetchWord (s : State) (nbits w : Nat) : State := s.withCommandWrite (tableByte nbits w)

end Sys2Proof.Machine
end

