-- ==== Sys2Proof/Machine/HostProgram.lean ====
section
/-! DEFINITION. The host programs' operations of R75, each as the list of host events it stands for. -/

namespace Sys2Proof.Machine

/-- The n-byte value that stands for a number; a larger number loses its high bits (log 15). -/
def hostValue (n : AccessSize) (x : Nat) : HostValue :=
  match n with
  | .one => .b1 (BitVec.ofNat 8 x)
  | .two => .b2 (BitVec.ofNat 16 x)
  | .four => .b4 (BitVec.ofNat 32 x)
  | .eight => .b8 (BitVec.ofNat 64 x)

/-- `WR <reg>, <value>`: MemWrite(offset(reg), width(reg), value) (R75). -/
def hostWR (r : Reg) (x : Nat) : List HostEvent := [.access (.write r.offset (hostValue r.size x))]

/-- `RD <reg>`: MemRead(offset(reg), width(reg)) (R75). -/
def hostRD (r : Reg) : List HostEvent := [.access (.read r.offset r.size)]

/-- `WRIN <i>, "<b0 b1 …>"`: one 1-byte write per element, in order (R75). -/
def hostWRIN (i : Nat) (bits : BitVector) : List HostEvent :=
  bits.mapIdx fun k x => .access (.write (inBase + i + k) (.b1 x))

/-- `RUN 0x<hh>`: MemWrite(0x000, 1, code) of a raw code (R75). -/
def hostRUNCode (code : Byte) : List HostEvent := [.access (.write Reg.cmd.offset (.b1 code))]

/-- `RUN <mnemonic>`: MemWrite(0x000, 1, code) with the command's code (R75). -/
def hostRUN (i : Instr) : List HostEvent := hostRUNCode i.code

/-- `RDOUT0 <i>, <n>`: read elements i … i+n-1 of OUT0, one byte each (R75). -/
def hostRDOUT0 (i n : Nat) : List HostEvent := (List.range n).map fun k => .access (.read (out0Base + i + k) .one)

/-- `RDOUT1 <i>, <n>`: read elements i … i+n-1 of OUT1, one byte each (R75). -/
def hostRDOUT1 (i n : Nat) : List HostEvent := (List.range n).map fun k => .access (.read (out1Base + i + k) .one)

/-- `LOADVEC "<bits>"`: WRIN 0, then WR IN_LEN with the number of bits (R75). -/
def hostLOADVEC (bits : BitVector) : List HostEvent := hostWRIN 0 bits ++ hostWR .inLen bits.length

/-- `COPYOUT0` started in state s: read OUT0_LEN (value n), then for each k < n read OUT0[k] and write that value to
IN[k], then write n to IN_LEN (R75). The values the host reads are those of s (log 15). -/
def hostCOPYOUT0 (s : State) : List HostEvent :=
  hostRD .out0Len
    ++ (List.range s.out0Len.toNat).flatMap (fun k => hostRDOUT0 k 1 ++ hostWRIN k [s.mem.read (out0Base + k)])
    ++ hostWR .inLen s.out0Len.toNat

end Sys2Proof.Machine
end

