-- ==== Sys2Proof/Safety.lean ====
section
/-! DEFINITION. What a safe run is: the invariant of the block's state, and host events that R51 admits. -/

namespace Sys2Proof.Machine

/-- The offset lies in OUT0 or OUT1 (R20). -/
def inOutputs (a : Nat) : Prop := out0Base ≤ a ∧ a < windowEnd

/-- What holds of the block at reset and after every step. -/
structure State.Inv (s : State) : Prop where
  /-- The buffers' bytes keep their canonical form (log 9). -/
  memCanonical : s.mem.wf = true
  /-- ERR_CODE is 0x00 or the code of a kind, 0x00 to 0x08 (R23); the two indicator errors cannot occur (R120). -/
  errCodeKnown : s.errCode.toNat ≤ 8 ∧ s.errCode ≠ 0x02#8 ∧ s.errCode ≠ 0x03#8
  /-- ERR_POS is below 256 (R172). -/
  errPosSmall : s.errPos.toNat < 256
  /-- ERR_POS is 0 but for the kinds that report a position (R170, R172). -/
  errPosZero : s.errCode ≠ 0x04#8 → s.errCode ≠ 0x06#8 → s.errPos = 0x0000#16
  /-- OUT0_LEN is at most OUT_CAP (R26). -/
  out0LenSmall : s.out0Len.toNat ≤ Config.outCap
  /-- OUT1_LEN is 0, a packet length or a burst length (R26, R139). -/
  out1LenKnown : s.out1Len.toNat ∈ [0, 40, 64, 124, 172]
  /-- Every element of OUT0 and OUT1 is 0 or 1 (R30). -/
  outputsAreBits : ∀ a, inOutputs a → s.mem.read a = 0x00#8 ∨ s.mem.read a = 0x01#8

/-- Every pending host event is one that R51 admits, or a reset. -/
def State.admitted (s : State) : Bool := s.pending.all (·.wellFormed)

end Sys2Proof.Machine
end

