-- ==== Sys2Proof/Certificates/Slice0/Obligations.lean ====
section
/-! DEFINITION. The statements for the provers. Statements about ROM entries hold for every ORDER_EXT and INV_EXT. -/

open Sys2Proof Sys2Proof.Machine

/-! ### Encoding -/

/-- R72: the four rows, each with its code as the pattern and the mask 0xFF, and what each code decodes to. -/
def Obligations.OpcodeMapDecodesTheFourCodes : Prop :=
  opcodeTable = [⟨0x01#8, 0xFF#8, .encodeV2⟩, ⟨0x02#8, 0xFF#8, .encodeV2Bursts⟩,
    ⟨0x03#8, 0xFF#8, .manchesterEncode⟩, ⟨0x04#8, 0xFF#8, .manchesterDecode⟩] ∧
  decode [0b00000001#8] = .ok (.encodeV2, []) ∧ decode [0b00000010#8] = .ok (.encodeV2Bursts, []) ∧
  decode [0b00000011#8] = .ok (.manchesterEncode, []) ∧ decode [0b00000100#8] = .ok (.manchesterDecode, [])

/-- R73: a code is rejected, by name, exactly when it is 0x00 or 0x05 to 0xFF, whatever bytes follow. -/
def Obligations.ReservedCodesAreRejectedByName : Prop :=
  ∀ (c : Byte) (rest : List Byte),
    (c.toNat = 0 ∨ 5 ≤ c.toNat) ↔ decode (c :: rest) = .error (.reservedCode c)

/-- R70, R72: decoding and encoding agree in both directions, for every command and every byte sequence. -/
def Obligations.DecodeAndEncodeAgree : Prop :=
  ∀ (bytes : List Byte) (i : Instr) (rest : List Byte),
    i.wellFormed = true ∧ decode bytes = .ok (i, rest) ↔ bytes = encode i ++ rest

/-! ### Steps and host accesses -/

/-- R22, R57: when the oldest host event writes a command's code to CMD, the step stores the code and runs that
command. The list of pending host events is the model's own (log 1). -/
def Obligations.StepRunsTheDecodedCommand : Prop :=
  ∀ (s : State) (c : Byte) (i : Instr) (rest : List HostEvent),
    s.pending = .access (.write 0x000 (.b1 c)) :: rest → decode [c] = .ok (i, []) →
    step s = exec i { s with pending := rest, cmd := c }

/-- R74: a reserved code is stored and reported, and nothing else changes. -/
def Obligations.ReservedCodeReportsIllegalCommand : Prop :=
  ∀ (s : State) (c : Byte) (rest : List HostEvent),
    s.pending = .access (.write 0x000 (.b1 c)) :: rest → (c.toNat = 0 ∨ 5 ≤ c.toNat) →
    step s = .next { s with pending := rest, cmd := c, errCode := 0x07#8, errPos := 0x0000#16 }

/-- R35: reset gives every register and every buffer element zero, from any state. -/
def Obligations.ResetSetsEveryRegisterAndElementToZero : Prop :=
  ∀ s t : State, t ∈ [State.reset, s.resetBlock] →
    t.cmd = 0x00#8 ∧ t.errCode = 0x00#8 ∧ t.errPos = 0x0000#16 ∧ t.inLen = 0x0000#16 ∧ t.out0Len = 0x0000#16 ∧
    t.out1Len = 0x0000#16 ∧ t.fixedHi = 0x00#8 ∧ t.rolling = 0x00000000#32 ∧ t.fixedLo = 0x0000000000000000#64 ∧
    ∀ a, t.mem.read a = 0x00#8

/-- R191: a reset between two accesses leaves the block in its reset state, whatever came before. That the host's two
lists stay is the model's choice (log 3). -/
def Obligations.ResetEventGivesTheResetState : Prop :=
  ∀ (s : State) (rest : List HostEvent), s.pending = .reset :: rest →
    step s = .next { State.reset with pending := rest, returned := s.returned }

/-- With no event pending a step changes nothing: the model's choice (log 2), after R33 and R59. -/
def Obligations.BlockIsIdleWithoutHostEvents : Prop :=
  ∀ s : State, s.pending = [] → step s = .next s

/-- R51, R56: a read of a whole register at its offset and width of R20, or of one buffer element, returns its value
and changes nothing of the block. Where the value goes is the model's choice (log 1). -/
def Obligations.ReadsReturnTheValueAndChangeNothing : Prop :=
  ∀ (s : State) (rest : List HostEvent),
    (∀ p ∈ [(0x000, AccessSize.one, HostValue.b1 s.cmd), (0x001, .one, .b1 s.errCode), (0x002, .two, .b2 s.errPos),
        (0x004, .two, .b2 s.inLen), (0x006, .two, .b2 s.out0Len), (0x008, .two, .b2 s.out1Len),
        (0x00C, .one, .b1 s.fixedHi), (0x010, .four, .b4 s.rolling), (0x018, .eight, .b8 s.fixedLo)],
      s.pending = .access (.read p.1 p.2.1) :: rest →
      step s = .next { s with pending := rest, returned := s.returned ++ [p.2.2] }) ∧
    (∀ a, 0x100 ≤ a → a < 0x600 → s.pending = .access (.read a .one) :: rest →
      step s = .next { s with pending := rest, returned := s.returned ++ [.b1 (s.mem.read a)] })

/-- R25, R27, R28, R29, R56: a write of an operand register stores the value, and nothing else changes. -/
def Obligations.OperandWritesStoreTheValue : Prop :=
  ∀ (s : State) (rest : List HostEvent),
    (∀ x, s.pending = .access (.write 0x004 (.b2 x)) :: rest →
      step s = .next { s with pending := rest, inLen := x }) ∧
    (∀ x, s.pending = .access (.write 0x00C (.b1 x)) :: rest →
      step s = .next { s with pending := rest, fixedHi := x }) ∧
    (∀ x, s.pending = .access (.write 0x010 (.b4 x)) :: rest →
      step s = .next { s with pending := rest, rolling := x }) ∧
    (∀ x, s.pending = .access (.write 0x018 (.b8 x)) :: rest →
      step s = .next { s with pending := rest, fixedLo := x })

/-- R30, R53, R56: a write of IN[i] stores any byte value at 0x100 + i, and nothing else changes. -/
def Obligations.InputWritesStoreTheElement : Prop :=
  ∀ (s : State) (rest : List HostEvent) (i : Nat) (x : Byte), s.mem.wf = true → i < 256 →
    s.pending = .access (.write (0x100 + i) (.b1 x)) :: rest →
    ∃ t, step s = .next t ∧ t = { s with pending := rest, mem := t.mem } ∧ t.mem.read (0x100 + i) = x ∧
      ∀ a, a ≠ 0x100 + i → t.mem.read a = s.mem.read a

/-- R51: an access runs exactly when it is admitted, and is refused otherwise; reset always runs (R191). -/
def Obligations.AccessesRunExactlyWhenAdmitted : Prop :=
  ∀ (s : State) (e : HostEvent) (rest : List HostEvent), s.pending = e :: rest →
    (e.wellFormed = true → ∃ t, step s = .next t) ∧ (e.wellFormed = false → ∃ r, step s = .refused r)

/-- R51, R171: while the host keeps to admitted accesses, no step stops, and the rest stays admitted. -/
def Obligations.AdmittedRunsNeverStop : Prop :=
  ∀ s : State, s.admitted = true → ∃ t, step s = .next t ∧ t.admitted = true

/-- R50, R51: which access is refused, and by which name, for reads and writes of every width at every offset: a write
of a whole RO register or of an output element; an access that reaches beyond 0x5FF; one that covers a byte of any of
the four gaps; a part of one register; and one that spans registers or buffer elements. No access is refused otherwise.
The names are the model's (log 7). -/
def Obligations.UnadmittedAccessesAreRefusedByName : Prop :=
  ∀ (s : State) (rest : List HostEvent) (acc : HostAccess) (a : Nat) (n : AccessSize),
    s.pending = .access acc :: rest → (acc = .read a n ∨ ∃ v, acc = .write a v ∧ v.size = n) →
    (step s = .refused (.readOnlyWrite a) ↔
      (∃ v, acc = .write a v) ∧
      ((a, n) ∈ [(0x001, AccessSize.one), (0x002, .two), (0x006, .two), (0x008, .two)] ∨
        n = .one ∧ 0x200 ≤ a ∧ a < 0x600)) ∧
    (step s = .refused (.outsideWindow a) ↔ 0x600 < a + n.bytes) ∧
    (step s = .refused (.unmappedByte a) ↔
      a + n.bytes ≤ 0x600 ∧ ∃ k, k < n.bytes ∧
        ((0x00A ≤ a + k ∧ a + k ≤ 0x00B) ∨ (0x00D ≤ a + k ∧ a + k ≤ 0x00F) ∨ (0x014 ≤ a + k ∧ a + k ≤ 0x017) ∨
          (0x020 ≤ a + k ∧ a + k ≤ 0x0FF))) ∧
    (step s = .refused (.partialRegister a) ↔
      ∃ r ∈ [(0x002, 2), (0x004, 2), (0x006, 2), (0x008, 2), (0x010, 4), (0x018, 8)],
        r.1 ≤ a ∧ a + n.bytes ≤ r.1 + r.2 ∧ n.bytes < r.2) ∧
    (step s = .refused (.spansTargets a) ↔
      (a + n.bytes ≤ 0x00A ∧
        ∀ r ∈ [(0x000, 1), (0x001, 1), (0x002, 2), (0x004, 2), (0x006, 2), (0x008, 2)],
          ¬ (r.1 ≤ a ∧ a + n.bytes ≤ r.1 + r.2)) ∨
      (0x100 ≤ a ∧ a + n.bytes ≤ 0x600 ∧ 1 < n.bytes)) ∧
    ∀ q, step s = .refused q →
      q ∈ [.readOnlyWrite a, .outsideWindow a, .unmappedByte a, .partialRegister a, .spansTargets a]

/-- R52: a register's bytes in the window, from its offset of R20 on, are its value in little-endian order, and the
value has no bits beyond them. -/
def Obligations.RegistersAreLittleEndianInTheWindow : Prop :=
  ∀ s : State,
    ∀ p ∈ [(0x000, 1, s.cmd.toNat), (0x001, 1, s.errCode.toNat), (0x002, 2, s.errPos.toNat), (0x004, 2, s.inLen.toNat),
        (0x006, 2, s.out0Len.toNat), (0x008, 2, s.out1Len.toNat), (0x00C, 1, s.fixedHi.toNat),
        (0x010, 4, s.rolling.toNat), (0x018, 8, s.fixedLo.toNat)],
      (∀ k, k < p.2.1 →
        ∃ b, s.windowByte (p.1 + k) = some b ∧ ∀ j, j < 8 → b.getLsbD j = p.2.2.testBit (8 * k + j)) ∧
      p.2.2 < 2 ^ (8 * p.2.1)

/-- R50: exactly the gaps and the offsets beyond 0x5FF name no byte. -/
def Obligations.UnmappedOffsetsNameNoByte : Prop :=
  ∀ (s : State) (a : Nat),
    s.windowByte a = none ↔
      (0x00A ≤ a ∧ a ≤ 0x00B) ∨ (0x00D ≤ a ∧ a ≤ 0x00F) ∨ (0x014 ≤ a ∧ a ≤ 0x017) ∨ (0x020 ≤ a ∧ a ≤ 0x0FF) ∨
        0x600 ≤ a

/-! ### Buffer memory -/

/-- Two memories in canonical form that read alike are equal: the form is the model's (log 9). -/
def Obligations.CanonicalMemoryIsDeterminedByItsBytes : Prop :=
  ∀ m m' : Memory, m.wf = true → m'.wf = true → (∀ a, m.read a = m'.read a) → m = m'

/-- R53: a vector written at an offset reads back there, element by element, and every other byte is unchanged. -/
def Obligations.VectorWriteReadsBackAndTouchesNothingElse : Prop :=
  ∀ (m : Memory) (base : Nat) (v : BitVector), m.wf = true → inBase ≤ base → base + v.length ≤ windowEnd →
    (m.writeVec base v).readVec base v.length = v ∧
    ∀ a, (a < base ∨ base + v.length ≤ a) → (m.writeVec base v).read a = m.read a

/-! ### FixedCodeSplitter -/

/-- R91: in short mode the halves are bits 39..20 and 19..0 of FIXED_LO, MSB first. -/
def Obligations.ShortSplitTakesTheLow40Bits : Prop :=
  ∀ (hi : BitVec 8) (lo : BitVec 64), isLong hi lo = false →
    lo.toNat / 2 ^ 40 = 0 ∧
    fixedSplit hi lo = ⟨msbBits (lo.toNat / 2 ^ 20 % 2 ^ 20) 20, msbBits (lo.toNat % 2 ^ 20) 20, false⟩

/-- R92: in long mode the halves are bits 71..36 and 35..0 of the identifier, MSB first. -/
def Obligations.LongSplitTakesAll72Bits : Prop :=
  ∀ (hi : BitVec 8) (lo : BitVec 64), isLong hi lo = true →
    fixedSplit hi lo = ⟨msbBits (identifier hi lo / 2 ^ 36) 36, msbBits (identifier hi lo % 2 ^ 36) 36, true⟩

/-- R76, R90, R93: the mode is long exactly when F[71:40] is not zero; the two halves, read MSB first, spell F in both
modes, and have their lengths and only 0 and 1 elements. -/
def Obligations.HalvesSpellTheIdentifier : Prop :=
  ∀ (hi : BitVec 8) (lo : BitVec 64),
    ((fixedSplit hi lo).long = true ↔ identifier hi lo / 2 ^ 40 ≠ 0) ∧
    bvToNat ((fixedSplit hi lo).half1 ++ (fixedSplit hi lo).half2) = identifier hi lo ∧
    (fixedSplit hi lo).half1.length = (if (fixedSplit hi lo).long then 36 else 20) ∧
    (fixedSplit hi lo).half2.length = (if (fixedSplit hi lo).long then 36 else 20) ∧
    allBits ((fixedSplit hi lo).half1 ++ (fixedSplit hi lo).half2) = true

/-! ### RollingCodeTransformer -/

/-- R100: the range check, and no other error. -/
def Obligations.RollingRangeCheckComesFirst : Prop :=
  ∀ r : BitVec 32,
    (2 ^ 28 ≤ r.toNat → rollingTransform r = .error .rollingOutOfRange) ∧
    (r.toNat < 2 ^ 28 → ∃ hA hB, rollingTransform r = .ok (hA, hB))

/-- R101: bit b of the rolling code becomes bit 27-b of the 28-bit result. -/
def Obligations.BitReversalExchangesBitsBAnd27MinusB : Prop :=
  ∀ r : Nat, r < 2 ^ 28 →
    reverse28 r < 2 ^ 28 ∧ ∀ b, b < 28 → (reverse28 r).testBit (27 - b) = r.testBit b

/-- R102: 18 trits, each the base-3 digit of its place, and nothing left over. -/
def Obligations.TritsAreTheBaseThreeDigits : Prop :=
  ∀ rev : Nat, rev < 2 ^ 28 →
    (trits rev).length = 18 ∧ (∀ k, k < 18 → ((trits rev).getD k 0).val = rev / 3 ^ k % 3) ∧
    rev = ((List.range 18).map fun k => ((trits rev).getD k 0).val * 3 ^ k).sum ∧ rev / 3 ^ 18 = 0

/-- R103, R104: the halves are the trit symbols in the order 3,2,1,0,11,10,9,8,16 and 7,6,5,4,15,14,13,12,17. -/
def Obligations.HalvesTakeTheTritsInPieceOrder : Prop :=
  ∀ r : BitVec 32, r.toNat < 2 ^ 28 →
    rollingTransform r = .ok
      ([3, 2, 1, 0, 11, 10, 9, 8, 16].flatMap fun k =>
        match (trits (reverse28 r.toNat)).getD k 0 with
        | 0 => [0x00#8, 0x00#8]
        | 1 => [0x00#8, 0x01#8]
        | 2 => [0x01#8, 0x00#8],
       [7, 6, 5, 4, 15, 14, 13, 12, 17].flatMap fun k =>
        match (trits (reverse28 r.toNat)).getD k 0 with
        | 0 => [0x00#8, 0x00#8]
        | 1 => [0x00#8, 0x01#8]
        | 2 => [0x01#8, 0x00#8])

/-- R78, R105: a rolling half has 18 elements, each aligned pair is 00, 01 or 10, and its order and inversion keys are
among the nine valid keys. -/
def Obligations.RollingHalvesHoldOnlyTritSymbols : Prop :=
  ∀ (r : BitVec 32) (hA hB : BitVector), rollingTransform r = .ok (hA, hB) → ∀ h, h = hA ∨ h = hB →
    h.length = 18 ∧
    (∀ k, k < 9 → slice h (2 * k) (2 * k + 2) ∈ [[0x00#8, 0x00#8], [0x00#8, 0x01#8], [0x01#8, 0x00#8]]) ∧
    orderKey h ∈ [0, 1, 2, 4, 5, 6, 8, 9, 10] ∧ inversionKey h ∈ [0, 1, 2, 4, 5, 6, 8, 9, 10]

/-- Different rolling codes below 2^28 give different pairs of halves: no bit of the code is lost (R101, R102, R104). -/
def Obligations.RollingTransformLosesNoBit : Prop :=
  ∀ (r r' : BitVec 32) (h : BitVector × BitVector),
    rollingTransform r = .ok h → rollingTransform r' = .ok h → r = r'

/-! ### PacketAssembler and the keyed ROMs -/

/-- R118, R119: the derived entries, the OPEN entries as parameters, and `none` for every other key. -/
def Obligations.KeyedTablesHoldExactlyTheNineEntries : Prop :=
  ∀ (oe : OrderExt) (ie : InvExt),
    ((romOrder oe 1).map permImages = some (2, 0, 1) ∧ (romOrder oe 2).map permImages = some (0, 1, 2) ∧
      (romOrder oe 4).map permImages = some (1, 2, 0) ∧ (romOrder oe 9).map permImages = some (2, 1, 0) ∧
      romOrder oe 0 = some oe.k0000 ∧ romOrder oe 5 = some oe.k0101 ∧ romOrder oe 6 = some oe.k0110 ∧
      romOrder oe 8 = some oe.k1000 ∧ romOrder oe 10 = some oe.k1010) ∧
    (romInv ie 0 = some ⟨true, true, false⟩ ∧ romInv ie 1 = some ⟨false, true, false⟩ ∧
      romInv ie 4 = some ⟨true, true, true⟩ ∧ romInv ie 6 = some ⟨false, true, true⟩ ∧
      romInv ie 2 = some ie.k0010 ∧ romInv ie 5 = some ie.k0101 ∧ romInv ie 8 = some ie.k1000 ∧
      romInv ie 9 = some ie.k1001 ∧ romInv ie 10 = some ie.k1010) ∧
    ∀ k, k ∉ [0, 1, 2, 4, 5, 6, 8, 9, 10] → romOrder oe k = none ∧ romInv ie k = none

/-- R82: the ROM words. The valid bit says whether the key has an entry, and a valid word's fields are the entry; the
three order fields of a valid word are 0, 1 and 2 in some order. -/
def Obligations.RomWordsHoldTheTables : Prop :=
  ∀ (oe : OrderExt) (ie : InvExt) (k : Nat),
    (orderWord oe k).getLsbD 6 = (romOrder oe k).isSome ∧ (invWord ie k).getLsbD 3 = (romInv ie k).isSome ∧
    (∀ p, romOrder oe k = some p →
      ((orderWord oe k).toNat / 16 % 4 = (permImages p).1.val ∧ (orderWord oe k).toNat / 4 % 4 = (permImages p).2.1.val ∧
       (orderWord oe k).toNat % 4 = (permImages p).2.2.val) ∧
      List.Perm [(permImages p).1, (permImages p).2.1, (permImages p).2.2] [0, 1, 2]) ∧
    (∀ m, romInv ie k = some m →
      (invWord ie k).getLsbD 2 = m.v0 ∧ (invWord ie k).getLsbD 1 = m.v1 ∧ (invWord ie k).getLsbD 0 = m.v2)

/-- R120: a missing key fails, the order lookup first. -/
def Obligations.MissingKeysFailClosed : Prop :=
  ∀ (oe : OrderExt) (ie : InvExt) (fixed rolling : BitVector) (long : Bool),
    (orderKey rolling ∉ [0, 1, 2, 4, 5, 6, 8, 9, 10] →
      encodeHalf oe ie fixed rolling long = .error .unknownOrderIndicator) ∧
    (orderKey rolling ∈ [0, 1, 2, 4, 5, 6, 8, 9, 10] → inversionKey rolling ∉ [0, 1, 2, 4, 5, 6, 8, 9, 10] →
      encodeHalf oe ie fixed rolling long = .error .unknownInversionIndicator)

/-- R115, R116: the three parts, each of exactly P elements. Short: two tens of the fixed half, and rolling[8..18).
Long: two eighteens of the fixed half, and rolling[8..18) followed by rolling[0..8). -/
def Obligations.PartsOfAPacket : Prop :=
  ∀ fixed rolling : BitVector, rolling.length = 18 →
    (fixed.length = 20 →
      ((makeParts fixed rolling false).part0.length = 10 ∧ (makeParts fixed rolling false).part1.length = 10 ∧
        (makeParts fixed rolling false).part2.length = 10) ∧
      ∀ k, k < 10 →
        (makeParts fixed rolling false).part0[k]? = fixed[k]? ∧
        (makeParts fixed rolling false).part1[k]? = fixed[10 + k]? ∧
        (makeParts fixed rolling false).part2[k]? = rolling[8 + k]?) ∧
    (fixed.length = 36 →
      ((makeParts fixed rolling true).part0.length = 18 ∧ (makeParts fixed rolling true).part1.length = 18 ∧
        (makeParts fixed rolling true).part2.length = 18) ∧
      ∀ k, k < 18 →
        (makeParts fixed rolling true).part0[k]? = fixed[k]? ∧
        (makeParts fixed rolling true).part1[k]? = fixed[18 + k]? ∧
        (makeParts fixed rolling true).part2[k]? = if k < 10 then rolling[8 + k]? else rolling[k - 10]?)

/-- R79, R121, R122: every element of a packet. -/
def Obligations.PacketLayout : Prop :=
  ∀ (oe : OrderExt) (ie : InvExt) (fixed rolling : BitVector) (long : Bool) (p : BitVector),
    fixed.length = 2 * partLength long → rolling.length = 18 → encodeHalf oe ie fixed rolling long = .ok p →
    p.length = 10 + 3 * partLength long ∧ p.length = (if long then 64 else 40) ∧
    p[0]? = some 0x00#8 ∧ p[1]? = some (if long then 0x01#8 else 0x00#8) ∧
    (∀ k, k < 8 → p[2 + k]? = rolling[k]?) ∧
    ∃ order inv, romOrder oe (orderKey rolling) = some order ∧ romInv ie (inversionKey rolling) = some inv ∧
      ∀ i, i < partLength long →
        p[10 + 3 * i]? =
          (((makeParts fixed rolling long).get (permImages order).1)[i]?).map (· ^^^ bit inv.v0) ∧
        p[10 + 3 * i + 1]? =
          (((makeParts fixed rolling long).get (permImages order).2.1)[i]?).map (· ^^^ bit inv.v1) ∧
        p[10 + 3 * i + 2]? =
          (((makeParts fixed rolling long).get (permImages order).2.2)[i]?).map (· ^^^ bit inv.v2)

/-- R120, R135: EncodeV2 has only the range error, at position 0; for every rolling code in range the packets are the
two PacketAssembler results, half 1 of each source for packet 0 and half 2 for packet 1, in the splitter's mode, and
have the length of the mode, whatever the OPEN entries are. -/
def Obligations.OnlyTheRangeErrorCanOccur : Prop :=
  ∀ (oe : OrderExt) (ie : InvExt) (hi : BitVec 8) (lo : BitVec 64) (r : BitVec 32),
    (2 ^ 28 ≤ r.toNat → encodeV2 oe ie hi lo r = .error ⟨.rollingOutOfRange, 0⟩) ∧
    (r.toNat < 2 ^ 28 → ∃ hA hB p0 p1, rollingTransform r = .ok (hA, hB) ∧
      encodeHalf oe ie (fixedSplit hi lo).half1 hA (fixedSplit hi lo).long = .ok p0 ∧
      encodeHalf oe ie (fixedSplit hi lo).half2 hB (fixedSplit hi lo).long = .ok p1 ∧
      encodeV2 oe ie hi lo r = .ok (p0, p1) ∧
      p0.length = (if identifier hi lo < 2 ^ 40 then 40 else 64) ∧ p1.length = p0.length ∧
      allBits (p0 ++ p1) = true)

/-- R140: packet 0 depends only on (f1, hA, long), packet 1 only on (f2, hB, long). -/
def Obligations.PacketHalvesAreIndependent : Prop :=
  ∀ (oe : OrderExt) (ie : InvExt) (hi hi' : BitVec 8) (lo lo' : BitVec 64) (r r' : BitVec 32)
    (hA hB hA' hB' p0 p1 p0' p1' : BitVector),
    rollingTransform r = .ok (hA, hB) → rollingTransform r' = .ok (hA', hB') →
    encodeV2 oe ie hi lo r = .ok (p0, p1) → encodeV2 oe ie hi' lo' r' = .ok (p0', p1') →
    (fixedSplit hi lo).long = (fixedSplit hi' lo').long →
    ((fixedSplit hi lo).half1 = (fixedSplit hi' lo').half1 → hA = hA' → p0 = p0') ∧
    ((fixedSplit hi lo).half2 = (fixedSplit hi' lo').half2 → hB = hB' → p1 = p1')

/-- The source's two known vectors (R136's example, 95_test_vectors.md S3 and S4), for every ORDER_EXT and INV_EXT. -/
def Obligations.KnownPacketVectorsAreReproduced : Prop :=
  ∀ (oe : OrderExt) (ie : InvExt),
    encodeV2 oe ie 0#8 70678577664#64 240124710#32 =
      .ok (msbBits 0b0001000100001011111000111111011011101110 40,
           msbBits 0b0010010110001110011110010011011011011011 40) ∧
    encodeV2 oe ie 250#8 4537042618177028096#64 240129675#32 =
      .ok (msbBits 0b0100010000101101100001101010001111010111100100100000100110101101 64,
           msbBits 0b0100100001110010010110011010011110010011110110011110010010010011 64)

/-! ### BurstBuilder and the Manchester coder -/

/-- R80, R137: a burst of a packet of bits never fails, has 2·(22+L) elements, and elements 2m and 2m+1 are the
Manchester pair of element m of SYNC_ROM ++ [0, i] ++ packet. -/
def Obligations.BurstLayout : Prop :=
  ∀ (i : Bool) (p : BitVector), allBits p = true →
    ∃ b, burst i p = .ok b ∧ b.length = 2 * (22 + p.length) ∧
      ∀ m, m < 22 + p.length →
        (b[2 * m]?, b[2 * m + 1]?) =
          if (if m < 16 then some 0x00#8 else if m < 20 then some 0x01#8 else if m = 20 then some 0x00#8
              else if m = 21 then some (bit i) else p[m - 22]?) = some 0x00#8
          then (some 0x01#8, some 0x00#8) else (some 0x00#8, some 0x01#8)

/-- R153: the decoder inverts the encoder on vectors of bits, and the encoder inverts the decoder wherever the decoder
succeeds. -/
def Obligations.ManchesterCodingRoundTrips : Prop :=
  (∀ v : BitVector, allBits v = true → (manchesterEncode v).bind manchesterDecode = .ok v) ∧
  (∀ w v : BitVector, manchesterDecode w = .ok v → manchesterEncode v = .ok w)

/-- R154: both bursts of a message decode to SYNC_ROM ++ [0, i] ++ packet i, and ENCODE_V2_BURSTS and ENCODE_V2 build
the same packets. -/
def Obligations.BurstsDecodeToTheirPackets : Prop :=
  ∀ (oe : OrderExt) (ie : InvExt) (hi : BitVec 8) (lo : BitVec 64) (r : BitVec 32), r.toNat < 2 ^ 28 →
    ∃ p0 p1 b0 b1, encodeV2 oe ie hi lo r = .ok (p0, p1) ∧ encodeV2Bursts oe ie hi lo r = .ok (b0, b1) ∧
      manchesterDecode b0 = .ok (syncRom ++ [0x00#8, 0x00#8] ++ p0) ∧
      manchesterDecode b1 = .ok (syncRom ++ [0x00#8, 0x01#8] ++ p1)

/-! ### The commands -/

/-- R136: ENCODE_V2. In range it completes: both packets stand in OUT0 and OUT1, both lengths are L, the report is
cleared, and nothing else changes. Out of range it reports ROLLING_OUT_OF_RANGE and changes nothing else. -/
def Obligations.EncodeV2Command : Prop :=
  ∀ s : State,
    (s.mem.wf = true → s.rolling.toNat < 2 ^ 28 →
      ∃ p0 p1 t, encodeV2 Config.orderExt Config.invExt s.fixedHi s.fixedLo s.rolling = .ok (p0, p1) ∧
        exec .encodeV2 s = .next t ∧ p1.length = p0.length ∧
        t.mem.readVec out0Base p0.length = p0 ∧ t.mem.readVec out1Base p0.length = p1 ∧
        t.out0Len.toNat = p0.length ∧ t.out1Len.toNat = p0.length ∧
        t = { s with mem := t.mem, out0Len := t.out0Len, out1Len := t.out1Len, errCode := 0x00#8, errPos := 0x0000#16 } ∧
        ∀ a, (a < out0Base ∨ out0Base + p0.length ≤ a) → (a < out1Base ∨ out1Base + p0.length ≤ a) →
          t.mem.read a = s.mem.read a) ∧
    (2 ^ 28 ≤ s.rolling.toNat → exec .encodeV2 s = .next { s with errCode := 0x01#8, errPos := 0x0000#16 })

/-- R138: ENCODE_V2_BURSTS. In range it completes: the bursts of both packets stand in OUT0 and OUT1, both lengths are
B, the report is cleared, and nothing else changes. Out of range as ENCODE_V2. -/
def Obligations.EncodeV2BurstsCommand : Prop :=
  ∀ s : State,
    (s.mem.wf = true → s.rolling.toNat < 2 ^ 28 →
      ∃ p0 p1 b0 b1 t, encodeV2 Config.orderExt Config.invExt s.fixedHi s.fixedLo s.rolling = .ok (p0, p1) ∧
        burst false p0 = .ok b0 ∧ burst true p1 = .ok b1 ∧
        exec .encodeV2Bursts s = .next t ∧ b0.length = 2 * (22 + p0.length) ∧ b1.length = b0.length ∧
        t.mem.readVec out0Base b0.length = b0 ∧ t.mem.readVec out1Base b0.length = b1 ∧
        t.out0Len.toNat = b0.length ∧ t.out1Len.toNat = b0.length ∧
        t = { s with mem := t.mem, out0Len := t.out0Len, out1Len := t.out1Len, errCode := 0x00#8, errPos := 0x0000#16 } ∧
        ∀ a, (a < out0Base ∨ out0Base + b0.length ≤ a) → (a < out1Base ∨ out1Base + b0.length ≤ a) →
          t.mem.read a = s.mem.read a) ∧
    (2 ^ 28 ≤ s.rolling.toNat → exec .encodeV2Bursts s = .next { s with errCode := 0x01#8, errPos := 0x0000#16 })

/-- R139: the output lengths after a successful encode command. -/
def Obligations.EncodeOutputLengths : Prop :=
  ∀ s t : State,
    (exec .encodeV2 s = .next t → t.errCode = 0x00#8 →
      t.out0Len = t.out1Len ∧
      t.out0Len.toNat = if s.fixedHi.toNat = 0 ∧ s.fixedLo.toNat < 2 ^ 40 then 40 else 64) ∧
    (exec .encodeV2Bursts s = .next t → t.errCode = 0x00#8 →
      t.out0Len = t.out1Len ∧
      t.out0Len.toNat = 2 * (22 + if s.fixedHi.toNat = 0 ∧ s.fixedLo.toNat < 2 ^ 40 then 40 else 64))

/-- R150, R152: MANCHESTER_ENCODE. On at most 256 bits it completes: element m of IN becomes elements 2m and 2m+1 of
OUT0. Too long a vector reports LENGTH_OUT_OF_RANGE; otherwise the least element that is no bit is reported. -/
def Obligations.ManchesterEncodeCommand : Prop :=
  ∀ s : State,
    (s.mem.wf = true → s.inLen.toNat ≤ 256 →
      (∀ m, m < s.inLen.toNat → s.mem.read (inBase + m) = 0x00#8 ∨ s.mem.read (inBase + m) = 0x01#8) →
      ∃ t, exec .manchesterEncode s = .next t ∧
        (∀ m, m < s.inLen.toNat →
          (s.mem.read (inBase + m) = 0x00#8 →
            t.mem.read (out0Base + 2 * m) = 0x01#8 ∧ t.mem.read (out0Base + 2 * m + 1) = 0x00#8) ∧
          (s.mem.read (inBase + m) = 0x01#8 →
            t.mem.read (out0Base + 2 * m) = 0x00#8 ∧ t.mem.read (out0Base + 2 * m + 1) = 0x01#8)) ∧
        t.out0Len.toNat = 2 * s.inLen.toNat ∧
        t = { s with mem := t.mem, out0Len := t.out0Len, errCode := 0x00#8, errPos := 0x0000#16 } ∧
        ∀ a, (a < out0Base ∨ out0Base + 2 * s.inLen.toNat ≤ a) → t.mem.read a = s.mem.read a) ∧
    (256 < s.inLen.toNat →
      exec .manchesterEncode s = .next { s with errCode := 0x08#8, errPos := 0x0000#16 }) ∧
    (∀ m, s.inLen.toNat ≤ 256 → m < s.inLen.toNat →
      (∀ k, k < m → s.mem.read (inBase + k) = 0x00#8 ∨ s.mem.read (inBase + k) = 0x01#8) →
      s.mem.read (inBase + m) ≠ 0x00#8 → s.mem.read (inBase + m) ≠ 0x01#8 →
      exec .manchesterEncode s = .next { s with errCode := 0x04#8, errPos := BitVec.ofNat 16 m })

/-- R151, R154: MANCHESTER_DECODE. On an even number, at most 256, of elements that are all symbols it completes: pair
k of IN becomes element k of OUT0. The errors in order: length, parity, then the first pair that is no symbol. -/
def Obligations.ManchesterDecodeCommand : Prop :=
  ∀ s : State,
    (s.mem.wf = true → s.inLen.toNat ≤ 256 → s.inLen.toNat % 2 = 0 →
      (∀ k, k < s.inLen.toNat / 2 →
        (s.mem.read (inBase + 2 * k), s.mem.read (inBase + 2 * k + 1)) ∈ [(0x01#8, 0x00#8), (0x00#8, 0x01#8)]) →
      ∃ t, exec .manchesterDecode s = .next t ∧
        (∀ k, k < s.inLen.toNat / 2 →
          t.mem.read (out0Base + k) = if s.mem.read (inBase + 2 * k) = 0x01#8 then 0x00#8 else 0x01#8) ∧
        t.out0Len.toNat = s.inLen.toNat / 2 ∧
        t = { s with mem := t.mem, out0Len := t.out0Len, errCode := 0x00#8, errPos := 0x0000#16 } ∧
        ∀ a, (a < out0Base ∨ out0Base + s.inLen.toNat / 2 ≤ a) → t.mem.read a = s.mem.read a) ∧
    (256 < s.inLen.toNat →
      exec .manchesterDecode s = .next { s with errCode := 0x08#8, errPos := 0x0000#16 }) ∧
    (s.inLen.toNat ≤ 256 → s.inLen.toNat % 2 = 1 →
      exec .manchesterDecode s = .next { s with errCode := 0x05#8, errPos := 0x0000#16 }) ∧
    (∀ k, s.inLen.toNat ≤ 256 → s.inLen.toNat % 2 = 0 → k < s.inLen.toNat / 2 →
      (∀ j, j < k →
        (s.mem.read (inBase + 2 * j), s.mem.read (inBase + 2 * j + 1)) ∈ [(0x01#8, 0x00#8), (0x00#8, 0x01#8)]) →
      (¬ (s.mem.read (inBase + 2 * k) ∈ [0x00#8, 0x01#8] ∧ s.mem.read (inBase + 2 * k + 1) ∈ [0x00#8, 0x01#8]) →
        exec .manchesterDecode s = .next { s with errCode := 0x04#8, errPos := BitVec.ofNat 16 (2 * k) }) ∧
      ((s.mem.read (inBase + 2 * k), s.mem.read (inBase + 2 * k + 1)) ∈ [(0x00#8, 0x00#8), (0x01#8, 0x01#8)] →
        exec .manchesterDecode s = .next { s with errCode := 0x06#8, errPos := BitVec.ofNat 16 (2 * k) }))

/-! ### The whole machine -/

/-- The invariant of Safety.lean holds at reset (R35). -/
def Obligations.ResetStateIsSafe : Prop := State.reset.Inv

/-- Every step keeps the invariant: canonical memory, a known error code and its position (R23, R24, R172), lengths
within the capacities (R26), and only 0 and 1 in the outputs (R30). -/
def Obligations.EveryStepKeepsTheInvariantOfTheBlock : Prop :=
  ∀ s t : State, s.Inv → step s = .next t → t.Inv

/-- R25, R71, R171: no command writes CMD, IN_LEN, FIXED_HI, ROLLING, FIXED_LO or IN. -/
def Obligations.CommandsLeaveTheirOperandsAlone : Prop :=
  ∀ (i : Instr) (s t : State), exec i s = .next t →
    t.cmd = s.cmd ∧ t.inLen = s.inLen ∧ t.fixedHi = s.fixedHi ∧ t.rolling = s.rolling ∧ t.fixedLo = s.fixedLo ∧
    t.pending = s.pending ∧ t.returned = s.returned ∧ ∀ a, a < out0Base → t.mem.read a = s.mem.read a

/-- R71, D10: the Manchester commands write neither OUT1 nor OUT1_LEN. -/
def Obligations.ManchesterCommandsLeaveOutputOneAlone : Prop :=
  ∀ (i : Instr) (s t : State), i = .manchesterEncode ∨ i = .manchesterDecode → exec i s = .next t →
    t.out1Len = s.out1Len ∧ ∀ a, out1Base ≤ a → t.mem.read a = s.mem.read a

/-- R171: raising an error writes ERR_CODE and ERR_POS only, and a CMD write that ends in an error leaves the state
before it with only CMD, ERR_CODE and ERR_POS changed. -/
def Obligations.FailedCommandsWriteOnlyTheReport : Prop :=
  (∀ (s : State) (e : CommandError),
    s.raise e = { s with errCode := e.kind.code, errPos := BitVec.ofNat 16 e.pos }) ∧
  ∀ (s t : State) (c : Byte) (rest : List HostEvent),
    s.pending = .access (.write 0x000 (.b1 c)) :: rest → step s = .next t → t.errCode ≠ 0x00#8 →
    t = { s with pending := rest, cmd := c, errCode := t.errCode, errPos := t.errPos }

/-- R23, R24, R174: every CMD write writes both report registers, with 0 and 0 or with a kind of R170 and a position
below 256 that does not depend on the report before it. -/
def Obligations.EveryCommandOverwritesTheReport : Prop :=
  ∀ (s t : State) (c : Byte) (rest : List HostEvent) (x : BitVec 8) (y : BitVec 16),
    s.pending = .access (.write 0x000 (.b1 c)) :: rest → step s = .next t →
    (t.errCode = 0x00#8 → t.errPos = 0x0000#16) ∧ t.errCode.toNat ≤ 8 ∧ t.errPos.toNat < 256 ∧
    ∃ t', step { s with errCode := x, errPos := y } = .next t' ∧ t' = t

/-- R20, R56, R174: a host event that is neither a CMD write nor a reset leaves CMD, the report, the lengths and both
outputs as they were. -/
def Obligations.OnlyCommandsWriteTheReadOnlyState : Prop :=
  ∀ (s t : State) (e : HostEvent) (rest : List HostEvent),
    s.pending = e :: rest → e ≠ .reset → (∀ v, e ≠ .access (.write 0x000 v)) → step s = .next t →
    t.cmd = s.cmd ∧ t.errCode = s.errCode ∧ t.errPos = s.errPos ∧ t.out0Len = s.out0Len ∧ t.out1Len = s.out1Len ∧
    ∀ a, out0Base ≤ a → t.mem.read a = s.mem.read a

/-- R34, D26: the result of an ENCODE command is a function of FIXED_HI, FIXED_LO and ROLLING, and the result of a
Manchester command a function of IN_LEN and IN[0..IN_LEN). -/
def Obligations.ResultsDependOnlyOnTheOperands : Prop :=
  ∀ (i : Instr) (s s' t t' : State),
    (i = .encodeV2 ∨ i = .encodeV2Bursts →
      s'.fixedHi = s.fixedHi ∧ s'.fixedLo = s.fixedLo ∧ s'.rolling = s.rolling) →
    (i = .manchesterEncode ∨ i = .manchesterDecode →
      s'.inLen = s.inLen ∧ ∀ m, m < s.inLen.toNat → s'.mem.read (inBase + m) = s.mem.read (inBase + m)) →
    s.mem.wf = true → s'.mem.wf = true → exec i s = .next t → exec i s' = .next t' →
    t'.errCode = t.errCode ∧ t'.errPos = t.errPos ∧
    (t.errCode = 0x00#8 →
      t'.out0Len = t.out0Len ∧
      t'.mem.readVec out0Base t.out0Len.toNat = t.mem.readVec out0Base t.out0Len.toNat ∧
      (i = .encodeV2 ∨ i = .encodeV2Bursts →
        t'.out1Len = t.out1Len ∧
        t'.mem.readVec out1Base t.out1Len.toNat = t.mem.readVec out1Base t.out1Len.toNat))

/-- R56, R174: performing a command a second time gives the same state as the first time, error or not. -/
def Obligations.RepeatingACommandChangesNothing : Prop :=
  ∀ (i : Instr) (s t : State), s.mem.wf = true → exec i s = .next t → exec i t = .next t

/-! ### The host's notation -/

/-- R75: LOADVEC of at most 256 elements runs to its end and leaves the vector in IN[0..n) and n in IN_LEN; nothing
else changes. -/
def Obligations.LoadvecStoresTheVector : Prop :=
  ∀ (s : State) (v : BitVector) (rest : List HostEvent), s.mem.wf = true → v.length ≤ 256 →
    s.pending = hostLOADVEC v ++ rest →
    ∃ t, Host.Core.run core (hostLOADVEC v).length s = .next t ∧
      t.mem.readVec inBase v.length = v ∧ t.inLen.toNat = v.length ∧
      t = { s with pending := rest, inLen := t.inLen, mem := t.mem } ∧
      ∀ a, (a < inBase ∨ inBase + v.length ≤ a) → t.mem.read a = s.mem.read a

/-- R75: COPYOUT0 of at most 256 elements runs to its end and leaves OUT0[0..n) in IN[0..n) and n in IN_LEN, and the
host has read n and the n elements. -/
def Obligations.CopyoutMovesTheOutputToTheInput : Prop :=
  ∀ (s : State) (rest : List HostEvent), s.mem.wf = true → s.out0Len.toNat ≤ 256 →
    s.pending = hostCOPYOUT0 s ++ rest →
    ∃ t, Host.Core.run core (hostCOPYOUT0 s).length s = .next t ∧
      t.mem.readVec inBase s.out0Len.toNat = s.mem.readVec out0Base s.out0Len.toNat ∧ t.inLen = s.out0Len ∧
      t.returned = s.returned ++ .b2 s.out0Len :: (s.mem.readVec out0Base s.out0Len.toNat).map HostValue.b1 ∧
      t = { s with pending := rest, inLen := t.inLen, mem := t.mem, returned := t.returned } ∧
      ∀ a, (a < inBase ∨ inBase + s.out0Len.toNat ≤ a) → t.mem.read a = s.mem.read a
end

