-- ==== Sys2Proof/Laws/Memory.lean ====
section
/-! SUPPORT. The laws of the buffers' memory: every operation keeps the canonical form, and a read sees the last write
to its own offset and nothing else. -/

namespace Sys2Proof.Machine

@[simp] theorem Memory.read_nil (a : Nat) : Memory.read [] a = 0x00#8 := rfl

theorem Memory.wfFrom_cons (lo a : Nat) (x : Byte) (m : Memory) :
    Memory.wfFrom lo ((a, x) :: m) = true ↔
      lo ≤ a ∧ a < windowEnd ∧ x ≠ 0x00#8 ∧ Memory.wfFrom (a + 1) m = true := by
  simp [Memory.wfFrom, and_assoc]

/-- The canonical form from an offset is the canonical form from any lower one. -/
theorem Memory.wfFrom_mono {lo lo' : Nat} (h : lo' ≤ lo) {m : Memory} (hm : Memory.wfFrom lo m = true) :
    Memory.wfFrom lo' m = true := by
  cases m with
  | nil => rfl
  | cons c m =>
    rw [Memory.wfFrom_cons] at hm ⊢
    exact ⟨h.trans hm.1, hm.2⟩

/-- Below its first possible entry a canonical memory reads 0x00. -/
theorem Memory.read_below {lo a : Nat} (ha : a < lo) {m : Memory} (hm : Memory.wfFrom lo m = true) :
    Memory.read m a = 0x00#8 := by
  induction m generalizing lo with
  | nil => rfl
  | cons c m ih =>
    rw [Memory.wfFrom_cons] at hm
    have hne : a ≠ c.1 := by omega
    simpa [Memory.read, hne] using ih (by omega) hm.2.2.2

theorem Memory.wfFrom_write {lo a : Nat} (hlo : lo ≤ a) (ha : a < windowEnd) (x : Byte) {m : Memory}
    (hm : Memory.wfFrom lo m = true) : Memory.wfFrom lo (Memory.write m a x) = true := by
  induction m generalizing lo with
  | nil =>
    by_cases hx : x = 0x00#8
    · simp [Memory.write, hx, Memory.wfFrom]
    · simp [Memory.write, hx, Memory.wfFrom, hlo, ha]
  | cons c m ih =>
    obtain ⟨b, y⟩ := c
    have hm' := hm
    rw [Memory.wfFrom_cons] at hm
    obtain ⟨h1, h2, h3, h4⟩ := hm
    unfold Memory.write
    split_ifs with hab hx hEq hx
    · exact hm'
    · rw [Memory.wfFrom_cons, Memory.wfFrom_cons]
      exact ⟨hlo, ha, hx, by omega, h2, h3, h4⟩
    · exact Memory.wfFrom_mono (by omega) h4
    · subst hEq
      rw [Memory.wfFrom_cons]
      exact ⟨hlo, ha, hx, h4⟩
    · rw [Memory.wfFrom_cons]
      exact ⟨h1, h2, h3, ih (by omega) h4⟩

/-- A write inside the buffers keeps the canonical form. -/
theorem Memory.wf_write {m : Memory} (hm : m.wf = true) {a : Nat} (h1 : inBase ≤ a) (h2 : a < windowEnd) (x : Byte) :
    (Memory.write m a x).wf = true := Memory.wfFrom_write h1 h2 x hm

/-- Writing a vector inside the buffers keeps the canonical form. -/
theorem Memory.wf_writeVec (v : BitVector) {m : Memory} (hm : m.wf = true) {base : Nat} (h1 : inBase ≤ base)
    (h2 : base + v.length ≤ windowEnd) : (Memory.writeVec m base v).wf = true := by
  induction v generalizing m base with
  | nil => exact hm
  | cons x v ih =>
    rw [List.length_cons] at h2
    exact ih (Memory.wf_write hm h1 (by omega) x) (by omega) (by omega)

/-- A write leaves every other offset alone. -/
theorem Memory.read_write_other (m : Memory) {a b : Nat} (h : b ≠ a) (x : Byte) :
    Memory.read (Memory.write m a x) b = Memory.read m b := by
  induction m with
  | nil => by_cases hx : x = 0x00#8 <;> simp [Memory.write, Memory.read, hx, h]
  | cons c m ih =>
    obtain ⟨d, y⟩ := c
    unfold Memory.write
    split_ifs with hab hx hEq hx
    · rfl
    · simp [Memory.read, h]
    · subst hEq; simp [Memory.read, h]
    · subst hEq; simp [Memory.read, h]
    · simp [Memory.read, ih]

theorem Memory.read_write_sameFrom {lo : Nat} {m : Memory} (hm : Memory.wfFrom lo m = true) (a : Nat) (x : Byte) :
    Memory.read (Memory.write m a x) a = x := by
  induction m generalizing lo with
  | nil => by_cases hx : x = 0x00#8 <;> simp [Memory.write, Memory.read, hx]
  | cons c m ih =>
    obtain ⟨d, y⟩ := c
    have hm' := hm
    rw [Memory.wfFrom_cons] at hm
    unfold Memory.write
    split_ifs with hab hx hEq hx
    · subst hx
      exact Memory.read_below hab (Memory.wfFrom_mono (Nat.le_refl d) (by
        rw [Memory.wfFrom_cons] at hm' ⊢; exact ⟨Nat.le_refl _, hm'.2⟩))
    · simp [Memory.read]
    · subst hx
      exact Memory.read_below (by omega) hm.2.2.2
    · simp [Memory.read]
    · have : a ≠ d := hEq
      simpa [Memory.read, this] using ih hm.2.2.2

/-- In a canonical memory a read sees the value just written to its offset. -/
theorem Memory.read_write_same {m : Memory} (hm : m.wf = true) (a : Nat) (x : Byte) :
    Memory.read (Memory.write m a x) a = x := Memory.read_write_sameFrom hm a x

@[simp] theorem Memory.length_readVec (m : Memory) (base n : Nat) : (Memory.readVec m base n).length = n := by
  simp [Memory.readVec]

end Sys2Proof.Machine
end

