-- ==== Sys2Proof/Laws/State.lean ====
section
/-! SUPPORT. One lemma per field per update of State, true by rfl, so that no proof unfolds an update. -/

namespace Sys2Proof.Machine

section
variable (s : State) (e : CommandError) (v v0 v1 : BitVector) (c : Byte)

@[simp] theorem State.raise_cmd : (s.raise e).cmd = s.cmd := rfl
@[simp] theorem State.raise_errCode : (s.raise e).errCode = e.kind.code := rfl
@[simp] theorem State.raise_errPos : (s.raise e).errPos = BitVec.ofNat 16 e.pos := rfl
@[simp] theorem State.raise_inLen : (s.raise e).inLen = s.inLen := rfl
@[simp] theorem State.raise_out0Len : (s.raise e).out0Len = s.out0Len := rfl
@[simp] theorem State.raise_out1Len : (s.raise e).out1Len = s.out1Len := rfl
@[simp] theorem State.raise_fixedHi : (s.raise e).fixedHi = s.fixedHi := rfl
@[simp] theorem State.raise_rolling : (s.raise e).rolling = s.rolling := rfl
@[simp] theorem State.raise_fixedLo : (s.raise e).fixedLo = s.fixedLo := rfl
@[simp] theorem State.raise_mem : (s.raise e).mem = s.mem := rfl
@[simp] theorem State.raise_pending : (s.raise e).pending = s.pending := rfl
@[simp] theorem State.raise_returned : (s.raise e).returned = s.returned := rfl

@[simp] theorem State.clearError_cmd : s.clearError.cmd = s.cmd := rfl
@[simp] theorem State.clearError_errCode : s.clearError.errCode = 0x00#8 := rfl
@[simp] theorem State.clearError_errPos : s.clearError.errPos = 0x0000#16 := rfl
@[simp] theorem State.clearError_inLen : s.clearError.inLen = s.inLen := rfl
@[simp] theorem State.clearError_out0Len : s.clearError.out0Len = s.out0Len := rfl
@[simp] theorem State.clearError_out1Len : s.clearError.out1Len = s.out1Len := rfl
@[simp] theorem State.clearError_fixedHi : s.clearError.fixedHi = s.fixedHi := rfl
@[simp] theorem State.clearError_rolling : s.clearError.rolling = s.rolling := rfl
@[simp] theorem State.clearError_fixedLo : s.clearError.fixedLo = s.fixedLo := rfl
@[simp] theorem State.clearError_mem : s.clearError.mem = s.mem := rfl
@[simp] theorem State.clearError_pending : s.clearError.pending = s.pending := rfl
@[simp] theorem State.clearError_returned : s.clearError.returned = s.returned := rfl

@[simp] theorem State.putOut0_cmd : (s.putOut0 v).cmd = s.cmd := rfl
@[simp] theorem State.putOut0_errCode : (s.putOut0 v).errCode = s.errCode := rfl
@[simp] theorem State.putOut0_errPos : (s.putOut0 v).errPos = s.errPos := rfl
@[simp] theorem State.putOut0_inLen : (s.putOut0 v).inLen = s.inLen := rfl
@[simp] theorem State.putOut0_out0Len : (s.putOut0 v).out0Len = BitVec.ofNat 16 v.length := rfl
@[simp] theorem State.putOut0_out1Len : (s.putOut0 v).out1Len = s.out1Len := rfl
@[simp] theorem State.putOut0_fixedHi : (s.putOut0 v).fixedHi = s.fixedHi := rfl
@[simp] theorem State.putOut0_rolling : (s.putOut0 v).rolling = s.rolling := rfl
@[simp] theorem State.putOut0_fixedLo : (s.putOut0 v).fixedLo = s.fixedLo := rfl
@[simp] theorem State.putOut0_mem : (s.putOut0 v).mem = s.mem.writeVec out0Base v := rfl
@[simp] theorem State.putOut0_pending : (s.putOut0 v).pending = s.pending := rfl
@[simp] theorem State.putOut0_returned : (s.putOut0 v).returned = s.returned := rfl

@[simp] theorem State.putOutPair_cmd : (s.putOutPair v0 v1).cmd = s.cmd := rfl
@[simp] theorem State.putOutPair_errCode : (s.putOutPair v0 v1).errCode = s.errCode := rfl
@[simp] theorem State.putOutPair_errPos : (s.putOutPair v0 v1).errPos = s.errPos := rfl
@[simp] theorem State.putOutPair_inLen : (s.putOutPair v0 v1).inLen = s.inLen := rfl
@[simp] theorem State.putOutPair_out0Len : (s.putOutPair v0 v1).out0Len = BitVec.ofNat 16 v0.length := rfl
@[simp] theorem State.putOutPair_out1Len : (s.putOutPair v0 v1).out1Len = BitVec.ofNat 16 v0.length := rfl
@[simp] theorem State.putOutPair_fixedHi : (s.putOutPair v0 v1).fixedHi = s.fixedHi := rfl
@[simp] theorem State.putOutPair_rolling : (s.putOutPair v0 v1).rolling = s.rolling := rfl
@[simp] theorem State.putOutPair_fixedLo : (s.putOutPair v0 v1).fixedLo = s.fixedLo := rfl
@[simp] theorem State.putOutPair_mem :
    (s.putOutPair v0 v1).mem = (s.mem.writeVec out0Base v0).writeVec out1Base v1 := rfl
@[simp] theorem State.putOutPair_pending : (s.putOutPair v0 v1).pending = s.pending := rfl
@[simp] theorem State.putOutPair_returned : (s.putOutPair v0 v1).returned = s.returned := rfl

@[simp] theorem State.resetBlock_cmd : s.resetBlock.cmd = 0x00#8 := rfl
@[simp] theorem State.resetBlock_errCode : s.resetBlock.errCode = 0x00#8 := rfl
@[simp] theorem State.resetBlock_errPos : s.resetBlock.errPos = 0x0000#16 := rfl
@[simp] theorem State.resetBlock_inLen : s.resetBlock.inLen = 0x0000#16 := rfl
@[simp] theorem State.resetBlock_out0Len : s.resetBlock.out0Len = 0x0000#16 := rfl
@[simp] theorem State.resetBlock_out1Len : s.resetBlock.out1Len = 0x0000#16 := rfl
@[simp] theorem State.resetBlock_fixedHi : s.resetBlock.fixedHi = 0x00#8 := rfl
@[simp] theorem State.resetBlock_rolling : s.resetBlock.rolling = 0x00000000#32 := rfl
@[simp] theorem State.resetBlock_fixedLo : s.resetBlock.fixedLo = 0x0000000000000000#64 := rfl
@[simp] theorem State.resetBlock_mem : s.resetBlock.mem = [] := rfl
@[simp] theorem State.resetBlock_pending : s.resetBlock.pending = s.pending := rfl
@[simp] theorem State.resetBlock_returned : s.resetBlock.returned = s.returned := rfl

@[simp] theorem State.withCommandWrite_cmd : (s.withCommandWrite c).cmd = s.cmd := rfl
@[simp] theorem State.withCommandWrite_errCode : (s.withCommandWrite c).errCode = s.errCode := rfl
@[simp] theorem State.withCommandWrite_errPos : (s.withCommandWrite c).errPos = s.errPos := rfl
@[simp] theorem State.withCommandWrite_inLen : (s.withCommandWrite c).inLen = s.inLen := rfl
@[simp] theorem State.withCommandWrite_out0Len : (s.withCommandWrite c).out0Len = s.out0Len := rfl
@[simp] theorem State.withCommandWrite_out1Len : (s.withCommandWrite c).out1Len = s.out1Len := rfl
@[simp] theorem State.withCommandWrite_fixedHi : (s.withCommandWrite c).fixedHi = s.fixedHi := rfl
@[simp] theorem State.withCommandWrite_rolling : (s.withCommandWrite c).rolling = s.rolling := rfl
@[simp] theorem State.withCommandWrite_fixedLo : (s.withCommandWrite c).fixedLo = s.fixedLo := rfl
@[simp] theorem State.withCommandWrite_mem : (s.withCommandWrite c).mem = s.mem := rfl
@[simp] theorem State.withCommandWrite_returned : (s.withCommandWrite c).returned = s.returned := rfl
@[simp] theorem State.withCommandWrite_pending :
    (s.withCommandWrite c).pending = .access (.write 0x000 (.b1 c)) :: s.pending := rfl

end

end Sys2Proof.Machine
end

