-- ==== Sys2Proof/Laws/Ops.lean ====
section
/-! SUPPORT. What each shared operation can do, said once. -/

namespace Sys2Proof.Machine

theorem State.finishSingle_ok (s : State) (v : BitVector) :
    s.finishSingle (.ok v) = (s.putOut0 v).clearError := rfl

theorem State.finishSingle_error (s : State) (e : CommandError) : s.finishSingle (.error e) = s.raise e := rfl

theorem State.finishPair_ok (s : State) (v0 v1 : BitVector) :
    s.finishPair (.ok (v0, v1)) = (s.putOutPair v0 v1).clearError := rfl

theorem State.finishPair_error (s : State) (e : CommandError) : s.finishPair (.error e) = s.raise e := rfl

/-- A Manchester command's operand, when IN_LEN is within the capacity. -/
theorem State.inputVector_ok (s : State) (h : s.inLen.toNat ≤ 256) :
    s.inputVector = .ok (s.mem.readVec inBase s.inLen.toNat) := by
  simp [State.inputVector, Config.inCap, Nat.not_lt.mpr h]

/-- A Manchester command's operand, when IN_LEN is beyond the capacity. -/
theorem State.inputVector_error (s : State) (h : 256 < s.inLen.toNat) :
    s.inputVector = .error ⟨.lengthOutOfRange, 0⟩ := by
  simp [State.inputVector, Config.inCap, h]

/-- Each command completes its own result, and does nothing else. -/
theorem exec_encodeV2 (s : State) :
    exec .encodeV2 s =
      .next (s.finishPair (encodeV2 Config.orderExt Config.invExt s.fixedHi s.fixedLo s.rolling)) := rfl

theorem exec_encodeV2Bursts (s : State) :
    exec .encodeV2Bursts s =
      .next (s.finishPair (encodeV2Bursts Config.orderExt Config.invExt s.fixedHi s.fixedLo s.rolling)) := rfl

theorem exec_manchesterEncode (s : State) :
    exec .manchesterEncode s = .next (s.finishSingle (s.inputVector.bind Machine.manchesterEncode)) := rfl

theorem exec_manchesterDecode (s : State) :
    exec .manchesterDecode s = .next (s.finishSingle (s.inputVector.bind Machine.manchesterDecode)) := rfl

/-- The full mask keeps every bit of the code. -/
theorem OpRow.accepts_full (p c : Byte) (i : Instr) : OpRow.accepts ⟨p, 0xFF#8, i⟩ c = (c == p) :=
  congrArg (· == p) (BitVec.and_allOnes (x := c))

/-- The inversion of `decodeCode`: the four codes and no other. -/
theorem decodeCode_eq_some (c : Byte) (i : Instr) : decodeCode c = some i ↔ c = i.code := by
  constructor
  · intro h
    simp only [decodeCode, opcodeTable, List.find?, OpRow.accepts_full, Option.map_eq_some_iff] at h
    obtain ⟨r, hr, rfl⟩ := h
    repeat' split at hr
    all_goals cases hr
    all_goals rename_i h
    all_goals exact eq_of_beq h
  · rintro rfl
    cases i <;> decide

/-- A write of a command's code to CMD runs the command. -/
theorem commandWrite_code (i : Instr) (s : State) : commandWrite i.code s = exec i { s with cmd := i.code } := by
  cases i <;> rfl

/-- A write of a code that is no command's reports ILLEGAL_COMMAND. -/
theorem commandWrite_reserved {c : Byte} (h : decodeCode c = none) (s : State) :
    commandWrite c s = .next (State.raise { s with cmd := c } ⟨.illegalCommand, 0⟩) := by
  simp [commandWrite, decode, h]

/-- Everything a CMD write can do: run one of the four commands, or report a reserved code. -/
theorem commandWrite_cases (c : Byte) (s : State) :
    (∃ i : Instr, c = i.code ∧ commandWrite c s = exec i { s with cmd := c }) ∨
    ((∀ i : Instr, c ≠ i.code) ∧
      commandWrite c s = .next (State.raise { s with cmd := c } ⟨.illegalCommand, 0⟩)) := by
  cases h : decodeCode c with
  | some i =>
    obtain rfl := (decodeCode_eq_some c i).mp h
    exact .inl ⟨i, rfl, commandWrite_code i s⟩
  | none =>
    refine .inr ⟨fun i hi => ?_, commandWrite_reserved h s⟩
    rw [(decodeCode_eq_some c i).mpr hi] at h
    cases h

end Sys2Proof.Machine
end

