-- ==== Sys2Proof/Laws/PerInstr.lean ====
section
/-! SUPPORT. Statements for all commands, one lemma per constructor. The family OneByte says that every command is one
byte long, and that its byte is the pattern of a row of the opcode table whose mask is 0xFF (R70, R72). -/

namespace Sys2Proof.Laws.OneByte

/-- The command's encoding is one byte, the pattern of its own full-mask row. -/
def Statement (i : Instr) : Prop :=
  (encode i).length = 1 ∧ ∃ r ∈ opcodeTable, r.instr = i ∧ r.mask = 0xFF#8 ∧ encode i = [r.pattern]

theorem encodeV2 : Statement .encodeV2 := ⟨rfl, _, List.mem_cons_self, rfl, rfl, rfl⟩

theorem encodeV2Bursts : Statement .encodeV2Bursts :=
  ⟨rfl, _, List.mem_cons_of_mem _ List.mem_cons_self, rfl, rfl, rfl⟩

theorem manchesterEncode : Statement .manchesterEncode :=
  ⟨rfl, _, List.mem_cons_of_mem _ (List.mem_cons_of_mem _ List.mem_cons_self), rfl, rfl, rfl⟩

theorem manchesterDecode : Statement .manchesterDecode :=
  ⟨rfl, _, List.mem_cons_of_mem _ (List.mem_cons_of_mem _ (List.mem_cons_of_mem _ List.mem_cons_self)), rfl, rfl, rfl⟩

end Sys2Proof.Laws.OneByte
end

