-- ==== Sys2Proof/Laws/Window.lean ====
section
/-! SUPPORT. The register map: what each admitted access addresses. -/

namespace Sys2Proof.Machine

@[simp] theorem targetAt_reg (r : Reg) : targetAt r.offset r.size = some (.reg r) := by cases r <;> rfl

/-- The bytes a register holds. -/
theorem Reg.holds_iff (r : Reg) (a : Nat) : r.holds a = true ↔ r.offset ≤ a ∧ a < r.offset + r.size.bytes := by
  simp [Reg.holds]

/-- No register begins inside the buffers. -/
theorem Reg.offset_lt (r : Reg) : r.offset < inBase := by cases r <;> decide

/-- Inside the buffers an access of one byte addresses the element there. -/
theorem targetAt_element {a : Nat} (h : inBase ≤ a) : targetAt a .one = elementAt a := by
  have hnone : Reg.all.find? (fun r => decide (r.offset = a) && decide (r.size = .one)) = none := by
    rw [List.find?_eq_none]
    intro r _
    have := r.offset_lt
    simp; omega
  simp [targetAt, hnone]

theorem targetAt_input {i : Nat} (h : i < 256) : targetAt (inBase + i) .one = some (.input i) := by
  rw [targetAt_element (Nat.le_add_right _ _), elementAt, if_neg (by simp), if_pos (by simp [inBase, out0Base]; omega)]
  simp

theorem targetAt_output0 {i : Nat} (h : i < 512) : targetAt (out0Base + i) .one = some (.output0 i) := by
  have h1 : ¬ out0Base + i < inBase := by simp only [inBase, out0Base]; omega
  have h2 : ¬ out0Base + i < out0Base := by omega
  have h3 : out0Base + i < out1Base := by simp only [out0Base, out1Base]; omega
  rw [targetAt_element (by omega), elementAt, if_neg h1, if_neg h2, if_pos h3, Nat.add_sub_cancel_left]

theorem targetAt_output1 {i : Nat} (h : i < 512) : targetAt (out1Base + i) .one = some (.output1 i) := by
  have h1 : ¬ out1Base + i < inBase := by simp only [inBase, out1Base]; omega
  have h2 : ¬ out1Base + i < out0Base := by simp only [out0Base, out1Base]; omega
  have h3 : ¬ out1Base + i < out1Base := by omega
  have h4 : out1Base + i < windowEnd := by simp only [windowEnd, out1Base]; omega
  rw [targetAt_element (by omega), elementAt, if_neg h1, if_neg h2, if_neg h3, if_pos h4, Nat.add_sub_cancel_left]

/-- What an access can address: a register at its offset with its width, or a buffer element with width 1. -/
theorem targetAt_cases {a : Nat} {n : AccessSize} {t : Target} (h : targetAt a n = some t) :
    (∃ r, t = .reg r ∧ a = r.offset ∧ n = r.size) ∨
    (n = .one ∧
      ((∃ i, i < 256 ∧ t = .input i ∧ a = inBase + i) ∨ (∃ i, i < 512 ∧ t = .output0 i ∧ a = out0Base + i) ∨
       (∃ i, i < 512 ∧ t = .output1 i ∧ a = out1Base + i))) := by
  unfold targetAt at h
  split at h
  · rename_i r hr
    have hp := List.find?_some hr
    simp only [Bool.and_eq_true, decide_eq_true_eq] at hp
    cases h
    exact .inl ⟨r, rfl, hp.1.symm, hp.2.symm⟩
  · split at h
    · rename_i hn
      refine .inr ⟨hn, ?_⟩
      rw [elementAt] at h
      split at h
      · cases h
      · split at h
        · cases h; exact .inl ⟨_, by simp only [inBase, out0Base] at *; omega, rfl, by omega⟩
        · split at h
          · cases h; exact .inr (.inl ⟨_, by simp only [out0Base, out1Base] at *; omega, rfl, by omega⟩)
          · split at h
            · cases h; exact .inr (.inr ⟨_, by simp only [windowEnd, out1Base] at *; omega, rfl, by omega⟩)
            · cases h
    · cases h

end Sys2Proof.Machine
end

