-- ==== Sys2Proof/Laws/Step.lean ====
section
/-! SUPPORT. Everything a step can do, said once. -/

namespace Sys2Proof.Machine

theorem step_nil {s : State} (h : s.pending = []) : step s = .next s := by simp [step, h, idle]

theorem step_cons {s : State} {e : HostEvent} {rest : List HostEvent} (h : s.pending = e :: rest) :
    step s = hostEvent e { s with pending := rest } := by simp [step, h]

/-- The successful outcomes of a host write: a command, or one stored value. -/
theorem hostWrite_cases {a : Nat} {v : HostValue} {s t : State} (h : hostWrite a v s = .next t) :
    (∃ c, a = 0x000 ∧ v = .b1 c ∧ commandWrite c s = .next t) ∨
    (∃ x, a = 0x004 ∧ v = .b2 x ∧ t = { s with inLen := x }) ∨
    (∃ x, a = 0x00C ∧ v = .b1 x ∧ t = { s with fixedHi := x }) ∨
    (∃ x, a = 0x010 ∧ v = .b4 x ∧ t = { s with rolling := x }) ∨
    (∃ x, a = 0x018 ∧ v = .b8 x ∧ t = { s with fixedLo := x }) ∨
    (∃ i x, i < 256 ∧ a = inBase + i ∧ v = .b1 x ∧ t = { s with mem := s.mem.write (inBase + i) x }) := by
  unfold hostWrite at h
  split at h
  all_goals first | (rename_i ht; cases targetAt_cases ht) | skip
  all_goals simp_all [Reg.offset]

/-- A read that succeeds changes only what has been returned to the host. -/
theorem hostRead_cases {a : Nat} {n : AccessSize} {s t : State} (h : hostRead a n s = .next t) :
    ∃ x, targetAt a n = some x ∧ t = { s with returned := s.returned ++ [s.readTarget x] } := by
  unfold hostRead at h
  split at h
  · rename_i x hx
    cases h
    exact ⟨x, hx, rfl⟩
  · cases h

/-- Every step that answers a next state: idle, a reset, a read, or a write. -/
theorem step_cases {s t : State} (h : step s = .next t) :
    (s.pending = [] ∧ t = s) ∨
    (∃ rest, s.pending = .reset :: rest ∧ t = State.resetBlock { s with pending := rest }) ∨
    (∃ a n rest, s.pending = .access (.read a n) :: rest ∧ hostRead a n { s with pending := rest } = .next t) ∨
    (∃ a v rest, s.pending = .access (.write a v) :: rest ∧ hostWrite a v { s with pending := rest } = .next t) := by
  cases hp : s.pending with
  | nil =>
    rw [step_nil hp] at h
    cases h
    exact .inl ⟨rfl, rfl⟩
  | cons e rest =>
    rw [step_cons hp] at h
    match e, h with
    | .reset, h => cases h; exact .inr (.inl ⟨rest, rfl, rfl⟩)
    | .access (.read a n), h => exact .inr (.inr (.inl ⟨a, n, rest, rfl, h⟩))
    | .access (.write a v), h => exact .inr (.inr (.inr ⟨a, v, rest, rfl, h⟩))

end Sys2Proof.Machine
end

