-- ==== Sys2Proof/Tests/Slice0.lean ====
section
/-! SUPPORT. Tests on fixed values, their expected results taken from spec/95_test_vectors.md or by hand from the cited
rule; the smoke tests of well-formedness; and for every statement with hypotheses a witness that meets them. -/

namespace Sys2Proof.Tests

open Sys2Proof Sys2Proof.Machine

/-! ### Helpers -/

/-- The reset state with the operands of the ENCODE commands. -/
def withCodes (hi lo rolling : Nat) : State :=
  { State.reset with
    fixedHi := BitVec.ofNat 8 hi, fixedLo := BitVec.ofNat 64 lo, rolling := BitVec.ofNat 32 rolling }

/-- The reset state with a vector in IN and its length in IN_LEN. -/
def withInput (v : BitVector) : State :=
  { State.reset with inLen := BitVec.ofNat 16 v.length, mem := Memory.writeVec [] inBase v }

/-- The reset state with one pending access. -/
def withAccess (a : HostAccess) : State := { State.reset with pending := [.access a] }

/-- ERR_CODE, ERR_POS, OUT0_LEN and OUT0[0..n) of a next state. -/
def result (n : Nat) : Host.Outcome State Fault Refusal → Option (Nat × Nat × Nat × BitVector)
  | .next t => some (t.errCode.toNat, t.errPos.toNat, t.out0Len.toNat, t.mem.readVec out0Base n)
  | .fault _ => none
  | .refused _ => none

/-- OUT1_LEN and OUT1[0..n) of a next state. -/
def result1 (n : Nat) : Host.Outcome State Fault Refusal → Option (Nat × BitVector)
  | .next t => some (t.out1Len.toNat, t.mem.readVec out1Base n)
  | .fault _ => none
  | .refused _ => none

/-! ### Decoding: the words of R72, bit by bit, and reserved words of V-C1 to V-C4 -/

theorem test_decode_encodeV2 : decodeTableWord 8 0b00000001 = some .encodeV2 := by decide
theorem test_decode_encodeV2Bursts : decodeTableWord 8 0b00000010 = some .encodeV2Bursts := by decide
theorem test_decode_manchesterEncode : decodeTableWord 8 0b00000011 = some .manchesterEncode := by decide
theorem test_decode_manchesterDecode : decodeTableWord 8 0b00000100 = some .manchesterDecode := by decide
theorem test_decode_reserved :
    [0x00, 0x05, 0xFF, 0x81].map (decodeTableWord 8) = [none, none, none, none] := by decide
theorem test_rows_do_not_overlap :
    opcodeTable.Pairwise fun r q => r.mask &&& q.mask &&& (r.pattern ^^^ q.pattern) ≠ 0#8 := by decide

/-! ### Well-formedness: every ill-formed kind of access of R51 is refused (a command has no check, R70) -/

theorem smoke_partial_register : (HostAccess.read 0x004 .one).wellFormed = false := by decide
theorem smoke_two_registers : (HostAccess.read 0x000 .two).wellFormed = false := by decide
theorem smoke_register_and_gap : (HostAccess.read 0x00C .four).wellFormed = false := by decide
theorem smoke_misaligned : (HostAccess.read 0x011 .four).wellFormed = false := by decide
theorem smoke_unmapped : (HostAccess.write 0x020 (.b1 0)).wellFormed = false := by decide
theorem smoke_read_only_register : (HostAccess.write 0x001 (.b1 0)).wellFormed = false := by decide
theorem smoke_read_only_buffer : (HostAccess.write 0x200 (.b1 0)).wellFormed = false := by decide
theorem smoke_wide_buffer : (HostAccess.write 0x100 (.b2 0)).wellFormed = false := by decide
theorem smoke_outside : (HostAccess.read 0x600 .one).wellFormed = false := by decide
theorem smoke_partial_rw_write : (HostAccess.write 0x018 (.b4 0)).wellFormed = false := by decide

theorem test_refusal_names :
    [refusalFor 0x004 1, refusalFor 0x000 2, refusalFor 0x00C 4, refusalFor 0x100 2, refusalFor 0x5FF 2] =
      [.partialRegister 0x004, .spansTargets 0x000, .unmappedByte 0x00C, .spansTargets 0x100,
        .outsideWindow 0x5FF] := by decide

/-! ### ENCODE_V2: vector S3, and the range error S5 -/

theorem test_encodeV2_S3 :
    (result 40 (exec .encodeV2 (withCodes 0 70678577664 240124710)),
      result1 40 (exec .encodeV2 (withCodes 0 70678577664 240124710))) =
    (some (0, 0, 40, msbBits 0b0001000100001011111000111111011011101110 40),
      some (40, msbBits 0b0010010110001110011110010011011011011011 40)) := by decide +kernel

theorem test_encodeV2_S5 :
    exec .encodeV2 (withCodes 0 0 0x10000000) =
      .next { withCodes 0 0 0x10000000 with errCode := 0x01#8 } := rfl

/-! ### ENCODE_V2_BURSTS: vector V-B1 (short mode), and burst 1 of S6 (long mode) -/

theorem test_encodeV2Bursts_VB1 :
    result 124 (exec .encodeV2Bursts (withCodes 0 70678577664 240124710)) =
    some (0, 0, 124, msbBits 0b1010101010101010101010101010101001010101101010101001101010011010101001100101010101101010010101010101100101100101011001010110 124) := by
  decide +kernel

theorem test_encodeV2Bursts_S6 :
    result1 172 (exec .encodeV2Bursts (withCodes 250 4537042618177028096 240129675)) =
    some (172, msbBits 0b1010101010101010101010101010101001010101100110011010011010101001010110100110100110010110100101100110100101010110100110100101010110010110100101010110100110100110100110100101 172) := by
  decide +kernel

/-! ### MANCHESTER_ENCODE: vector S1, and the leftmost invalid element V-M5 -/

theorem test_manchesterEncode_S1 :
    result 22 (exec .manchesterEncode (withInput (msbBits 0b10100111001 11))) =
    some (0, 0, 22, msbBits 0b0110011010010101101001 22) := by decide +kernel

theorem test_manchesterEncode_VM5 :
    result 0 (exec .manchesterEncode (withInput [0x01#8, 0xFF#8, 0x03#8])) = some (4, 1, 0, []) := by decide +kernel

/-! ### MANCHESTER_DECODE: vectors S2 and V-M13 -/

theorem test_manchesterDecode_S2 :
    result 11 (exec .manchesterDecode (withInput (msbBits 0b0110011010010101101001 22))) =
    some (0, 0, 11, msbBits 0b10100111001 11) := by decide +kernel

theorem test_manchesterDecode_VM13 :
    result 0 (exec .manchesterDecode (withInput [0x01#8, 0x00#8, 0x00#8, 0x02#8])) = some (4, 2, 0, []) := by
  decide +kernel

/-! ### Steps: V-C1, a command as the first one after reset, and the byte view of ROLLING in P2 -/

theorem test_step_reserved_VC1 :
    step (withAccess (.write 0x000 (.b1 0x00#8))) = .next { State.reset with errCode := 0x07#8 } := rfl

/-- With all operands zero the keys are OPEN entries; the command completes all the same. -/
theorem test_first_command_after_reset :
    (match step (State.reset.withFetchWord 8 0x01) with
      | .next t => (t.cmd.toNat, t.errCode.toNat, t.out0Len.toNat, t.out1Len.toNat)
      | _ => (0, 0, 0, 0)) = (1, 0, 40, 40) := by decide +kernel

theorem test_rolling_bytes_P2 :
    [0x010, 0x011, 0x012, 0x013, 0x014].map (withCodes 0 0 0x10000000).windowByte =
      [some 0x00#8, some 0x00#8, some 0x00#8, some 0x10#8, none] := by decide

/-! ### The splitter and the transformer: V-S8 and V-R14 -/

theorem test_split_VS8 :
    fixedSplit 250#8 0x3EF6D03913400000#64 =
      ⟨msbBits 0b111110100011111011110110110100000011 36, msbBits 0b100100010011010000000000000000000000 36, true⟩ := by
  decide +kernel

theorem test_rolling_VR14 :
    (reverse28 240129675, rollingTransform 240129675#32) =
      (219578535, .ok (msbBits 0b000100000001011010 18, msbBits 0b001000010000101001 18)) := by decide +kernel

/-! ### The host's notation: LOADVEC expands as in P4 -/

theorem test_loadvec_P4 :
    hostLOADVEC [1#8, 0#8, 1#8] =
      [.access (.write 0x100 (.b1 1#8)), .access (.write 0x101 (.b1 0#8)), .access (.write 0x102 (.b1 1#8)),
        .access (.write 0x004 (.b2 3#16))] := by decide

/-! ### Witnesses: states and operands that meet the statements' hypotheses -/

/-- The reset state, with an event pending, meets the invariant. -/
theorem inv_withAccess (a : HostAccess) : (withAccess a).Inv where
  memCanonical := rfl
  errCodeKnown := (by decide : (0x00#8).toNat ≤ 8 ∧ 0x00#8 ≠ 0x02#8 ∧ 0x00#8 ≠ 0x03#8)
  errPosSmall := (by decide : (0x0000#16).toNat < 256)
  errPosZero := fun _ _ => rfl
  out0LenSmall := Nat.zero_le _
  out1LenKnown := List.mem_cons_self
  outputsAreBits := fun _ _ => .inl rfl

theorem witness_StepRunsTheDecodedCommand :
    (withAccess (.write 0x000 (.b1 0x04#8))).pending = [.access (.write 0x000 (.b1 0x04#8))] ∧
      decode [0x04#8] = .ok (.manchesterDecode, []) := ⟨rfl, rfl⟩

theorem witness_ReservedCodeReportsIllegalCommand :
    ∀ c ∈ [0x00#8, 0x05#8, 0xFF#8],
      (withAccess (.write 0x000 (.b1 c))).pending = [.access (.write 0x000 (.b1 c))] ∧
        (c.toNat = 0 ∨ 5 ≤ c.toNat) := by decide

theorem witness_ResetSetsEveryRegisterAndElementToZero :
    State.reset ∈ [State.reset, (withCodes 1 2 3).resetBlock] ∧
    (withCodes 1 2 3).resetBlock ∈ [State.reset, (withCodes 1 2 3).resetBlock] := by simp

theorem witness_ResetEventGivesTheResetState :
    ({ State.reset with pending := [.reset] } : State).pending = .reset :: [] := rfl

theorem witness_BlockIsIdleWithoutHostEvents : State.reset.pending = [] := rfl

theorem witness_ReadsReturnTheValueAndChangeNothing :
    (∀ p ∈ [(0x000, AccessSize.one), (0x001, .one), (0x002, .two), (0x004, .two), (0x006, .two), (0x008, .two),
        (0x00C, .one), (0x010, .four), (0x018, .eight)],
      (withAccess (.read p.1 p.2)).pending = [.access (.read p.1 p.2)]) ∧
    ∀ a ∈ [0x100, 0x1FF, 0x200, 0x3FF, 0x400, 0x5FF],
      0x100 ≤ a ∧ a < 0x600 ∧ (withAccess (.read a .one)).pending = [.access (.read a .one)] := by decide

theorem witness_OperandWritesStoreTheValue :
    (withAccess (.write 0x004 (.b2 0xFFFF))).pending = [.access (.write 0x004 (.b2 0xFFFF))] ∧
    (withAccess (.write 0x00C (.b1 0xFF))).pending = [.access (.write 0x00C (.b1 0xFF))] ∧
    (withAccess (.write 0x010 (.b4 0xFFFFFFFF))).pending = [.access (.write 0x010 (.b4 0xFFFFFFFF))] ∧
    (withAccess (.write 0x018 (.b8 1))).pending = [.access (.write 0x018 (.b8 1))] := ⟨rfl, rfl, rfl, rfl⟩

theorem witness_InputWritesStoreTheElement :
    ∀ i ∈ [0, 255], (withAccess (.write (0x100 + i) (.b1 0xFF#8))).mem.wf = true ∧ i < 256 ∧
      (withAccess (.write (0x100 + i) (.b1 0xFF#8))).pending = [.access (.write (0x100 + i) (.b1 0xFF#8))] := by decide

theorem witness_AccessesRunExactlyWhenAdmitted :
    (HostEvent.access (.read 0x5FF .one)).wellFormed = true ∧ (HostEvent.access (.read 0x600 .one)).wellFormed = false ∧
      (withAccess (.read 0x5FF .one)).pending = [.access (.read 0x5FF .one)] := by decide

theorem witness_AdmittedRunsNeverStop : (withAccess (.write 0x1FF (.b1 2#8))).admitted = true := by decide

/-- The hypotheses for a read and a write, and each clause at the ends of its range: the step refuses by its name. -/
theorem witness_UnadmittedAccessesAreRefusedByName :
    (withAccess (.read 0x5FF .two)).pending = [.access (.read 0x5FF .two)] ∧
    (∃ v, HostAccess.write 0x008 (.b2 0) = .write 0x008 v ∧ v.size = .two) ∧
    (∀ p ∈ [(HostAccess.write 0x001 (.b1 0), Refusal.readOnlyWrite 0x001), (.write 0x008 (.b2 0), .readOnlyWrite 0x008),
        (.write 0x200 (.b1 0), .readOnlyWrite 0x200), (.write 0x5FF (.b1 0), .readOnlyWrite 0x5FF),
        (.read 0x600 .one, .outsideWindow 0x600), (.write 0x5FF (.b2 0), .outsideWindow 0x5FF),
        (.read 0x5F9 .eight, .outsideWindow 0x5F9),
        (.read 0x008 .four, .unmappedByte 0x008), (.write 0x00F (.b1 0), .unmappedByte 0x00F),
        (.read 0x017 .two, .unmappedByte 0x017), (.write 0x020 (.b1 0), .unmappedByte 0x020),
        (.read 0x0FF .two, .unmappedByte 0x0FF),
        (.read 0x003 .one, .partialRegister 0x003), (.write 0x01C (.b4 0), .partialRegister 0x01C),
        (.read 0x000 .two, .spansTargets 0x000), (.write 0x006 (.b4 0), .spansTargets 0x006),
        (.read 0x100 .two, .spansTargets 0x100), (.write 0x5F8 (.b8 0), .spansTargets 0x5F8)],
      step (withAccess p.1) = .refused p.2) := by
  refine ⟨rfl, ⟨_, rfl, rfl⟩, ?_⟩
  simp only [List.forall_mem_cons]
  exact ⟨rfl, rfl, rfl, rfl, rfl, rfl, rfl, rfl, rfl, rfl, rfl, rfl, rfl, rfl, rfl, rfl, rfl, rfl,
    fun _ h => absurd h List.not_mem_nil⟩

theorem witness_RegistersAreLittleEndianInTheWindow :
    (0x000, 1, State.reset.cmd.toNat) ∈ [(0x000, 1, State.reset.cmd.toNat)] ∧ 0 < 1 ∧ 7 < 8 := by decide

theorem witness_CanonicalMemoryIsDeterminedByItsBytes :
    Memory.wf [(0x100, 1#8), (0x5FF, 1#8)] = true ∧
      ∀ a, Memory.read [(0x100, 1#8), (0x5FF, 1#8)] a = Memory.read [(0x100, 1#8), (0x5FF, 1#8)] a :=
  ⟨by decide, fun _ => rfl⟩

theorem witness_VectorWriteReadsBackAndTouchesNothingElse :
    Memory.wf [(0x5FF, 1#8)] = true ∧ inBase ≤ 0x5FE ∧ 0x5FE + [1#8, 0#8].length ≤ windowEnd ∧ inBase ≤ inBase := by
  decide

theorem witness_ShortSplitTakesTheLow40Bits : isLong 0#8 0xFFFFFFFFFF#64 = false := by decide
theorem witness_LongSplitTakesAll72Bits : isLong 0#8 0x10000000000#64 = true ∧ isLong 1#8 0#64 = true := by decide

theorem witness_RollingRangeCheckComesFirst :
    2 ^ 28 ≤ (0x10000000#32).toNat ∧ (0x0FFFFFFF#32).toNat < 2 ^ 28 := by decide

theorem witness_BitReversalExchangesBitsBAnd27MinusB : 0x0FFFFFFF < 2 ^ 28 ∧ 27 < 28 := by decide
theorem witness_TritsAreTheBaseThreeDigits : 0x0FFFFFFF < 2 ^ 28 ∧ 17 < 18 := by decide
theorem witness_HalvesTakeTheTritsInPieceOrder : (0x0FFFFFFF#32).toNat < 2 ^ 28 := by decide

theorem witness_RollingHalvesHoldOnlyTritSymbols :
    ∃ hA hB, rollingTransform 0x0FFFFFFF#32 = .ok (hA, hB) ∧ (hA = hA ∨ hA = hB) ∧ 8 < 9 :=
  ⟨_, _, rfl, .inl rfl, by decide⟩

theorem witness_RollingTransformLosesNoBit :
    ∃ h, rollingTransform 0x0FFFFFFF#32 = .ok h ∧ rollingTransform 0x0FFFFFFF#32 = .ok h := ⟨_, rfl, rfl⟩

theorem witness_KeyedTablesHoldExactlyTheNineEntries :
    ∀ k ∈ [3, 7, 11, 15], k ∉ [0, 1, 2, 4, 5, 6, 8, 9, 10] := by decide

theorem witness_RomWordsHoldTheTables (oe : OrderExt) (ie : InvExt) :
    romOrder oe 9 = some .p210 ∧ romInv ie 6 = some ⟨false, true, true⟩ := ⟨rfl, rfl⟩

theorem witness_MissingKeysFailClosed :
    orderKey [0, 0, 1, 1] ∉ [0, 1, 2, 4, 5, 6, 8, 9, 10] ∧
    orderKey [0, 0, 0, 0, 1, 1, 1, 1] ∈ [0, 1, 2, 4, 5, 6, 8, 9, 10] ∧
    inversionKey [0, 0, 0, 0, 1, 1, 1, 1] ∉ [0, 1, 2, 4, 5, 6, 8, 9, 10] := by decide

theorem witness_PartsOfAPacket :
    (rep 0#8 18).length = 18 ∧ (rep 0#8 20).length = 20 ∧ 9 < 10 ∧ (rep 0#8 36).length = 36 ∧ 17 < 18 := by decide

/-- The worked example of R123. -/
theorem witness_PacketLayout (oe : OrderExt) (ie : InvExt) :
    (msbBits 0b0001000001110100110001011000001000000000 20).length = 2 * partLength false ∧
    (msbBits 0b010001001001000010 18).length = 18 ∧
    (∃ p, encodeHalf oe ie (msbBits 0b00010000011101001100 20) (msbBits 0b010001001001000010 18) false = .ok p) ∧
    3 < 8 ∧ 9 < partLength false := ⟨by decide, by decide, ⟨_, rfl⟩, by decide, by decide⟩

theorem witness_OnlyTheRangeErrorCanOccur : 2 ^ 28 ≤ (0x10000000#32).toNat ∧ (0x0FFFFFFF#32).toNat < 2 ^ 28 := by decide

theorem witness_PacketHalvesAreIndependent (oe : OrderExt) (ie : InvExt) :
    ∃ hA hB p0 p1, rollingTransform 240124710#32 = .ok (hA, hB) ∧
      encodeV2 oe ie 0#8 70678577664#64 240124710#32 = .ok (p0, p1) := ⟨_, _, _, _, rfl, rfl⟩

theorem witness_BurstLayout : allBits [0#8, 1#8] = true ∧ 23 < 22 + [0#8, 1#8].length := by decide

theorem witness_ManchesterCodingRoundTrips :
    allBits [1#8, 0#8] = true ∧ manchesterDecode [0#8, 1#8, 1#8, 0#8] = .ok [1#8, 0#8] := ⟨by decide, rfl⟩

theorem witness_BurstsDecodeToTheirPackets : (0x0FFFFFFF#32).toNat < 2 ^ 28 := by decide

theorem witness_EncodeV2Command :
    ((withCodes 0 0 0x0FFFFFFF).mem.wf = true ∧ (withCodes 0 0 0x0FFFFFFF).rolling.toNat < 2 ^ 28) ∧
    2 ^ 28 ≤ (withCodes 0 0 0x10000000).rolling.toNat := by decide

theorem witness_EncodeV2BurstsCommand :
    ((withCodes 0 0x10000000000 0x0FFFFFFF).mem.wf = true ∧
      (withCodes 0 0x10000000000 0x0FFFFFFF).rolling.toNat < 2 ^ 28) ∧
    2 ^ 28 ≤ (withCodes 0 0 0xFFFFFFFF).rolling.toNat := by decide

theorem witness_EncodeOutputLengths :
    (∃ t, exec .encodeV2 (withCodes 0 70678577664 240124710) = .next t ∧ t.errCode = 0x00#8) ∧
    ∃ t, exec .encodeV2Bursts (withCodes 250 4537042618177028096 240129675) = .next t ∧ t.errCode = 0x00#8 :=
  ⟨⟨_, rfl, by decide +kernel⟩, _, rfl, by decide +kernel⟩

/-- IN_LEN = 256 over the zero elements of reset; IN_LEN = 257; and an invalid element after a valid one. -/
theorem witness_ManchesterEncodeCommand :
    (({ State.reset with inLen := 256#16 } : State).mem.wf = true ∧
      ({ State.reset with inLen := 256#16 } : State).inLen.toNat ≤ 256 ∧
      ∀ m, m < 256 → ({ State.reset with inLen := 256#16 } : State).mem.read (inBase + m) = 0x00#8) ∧
    256 < ({ State.reset with inLen := 257#16 } : State).inLen.toNat ∧
    ((withInput [1#8, 2#8]).inLen.toNat ≤ 256 ∧ 1 < (withInput [1#8, 2#8]).inLen.toNat ∧
      (∀ k, k < 1 → (withInput [1#8, 2#8]).mem.read (inBase + k) = 0x00#8 ∨
        (withInput [1#8, 2#8]).mem.read (inBase + k) = 0x01#8) ∧
      (withInput [1#8, 2#8]).mem.read (inBase + 1) ≠ 0x00#8 ∧ (withInput [1#8, 2#8]).mem.read (inBase + 1) ≠ 0x01#8) :=
  ⟨⟨rfl, by decide, fun _ _ => rfl⟩, by decide, by decide, by decide, by decide, by decide, by decide⟩

/-- A full vector of 128 symbols; IN_LEN = 257; IN_LEN = 255; an invalid bit in pair 1; equal elements in pair 1. -/
theorem witness_ManchesterDecodeCommand :
    ((withInput ((List.replicate 128 [1#8, 0#8]).flatten)).mem.wf = true ∧
      (withInput ((List.replicate 128 [1#8, 0#8]).flatten)).inLen.toNat = 256 ∧
      ∀ k, k < 128 →
        ((withInput ((List.replicate 128 [1#8, 0#8]).flatten)).mem.read (inBase + 2 * k),
          (withInput ((List.replicate 128 [1#8, 0#8]).flatten)).mem.read (inBase + 2 * k + 1)) ∈
            [(0x01#8, 0x00#8), (0x00#8, 0x01#8)]) ∧
    256 < ({ State.reset with inLen := 257#16 } : State).inLen.toNat ∧
    (({ State.reset with inLen := 255#16 } : State).inLen.toNat ≤ 256 ∧
      ({ State.reset with inLen := 255#16 } : State).inLen.toNat % 2 = 1) ∧
    (((withInput [1#8, 0#8, 0#8, 2#8]).mem.read (inBase + 0), (withInput [1#8, 0#8, 0#8, 2#8]).mem.read (inBase + 1)) =
        (0x01#8, 0x00#8) ∧ (withInput [1#8, 0#8, 0#8, 2#8]).inLen.toNat = 4 ∧
      (withInput [1#8, 0#8, 0#8, 2#8]).mem.read (inBase + 3) ∉ [0x00#8, 0x01#8]) ∧
    (((withInput [1#8, 0#8, 1#8, 1#8]).mem.read (inBase + 0), (withInput [1#8, 0#8, 1#8, 1#8]).mem.read (inBase + 1)) =
        (0x01#8, 0x00#8) ∧ (withInput [1#8, 0#8, 1#8, 1#8]).inLen.toNat = 4 ∧
      ((withInput [1#8, 0#8, 1#8, 1#8]).mem.read (inBase + 2), (withInput [1#8, 0#8, 1#8, 1#8]).mem.read (inBase + 3)) =
        (0x01#8, 0x01#8)) := by decide +kernel

theorem witness_EveryStepKeepsTheInvariantOfTheBlock :
    (withAccess (.write 0x000 (.b1 0x01#8))).Inv ∧ ∃ t, step (withAccess (.write 0x000 (.b1 0x01#8))) = .next t :=
  ⟨inv_withAccess _, _, rfl⟩

theorem witness_CommandsLeaveTheirOperandsAlone :
    ∀ i : Instr, ∃ t, exec i (withInput [1#8, 0#8]) = .next t := by intro i; cases i <;> exact ⟨_, rfl⟩

theorem witness_ManchesterCommandsLeaveOutputOneAlone :
    (∃ t, exec .manchesterEncode (withInput [1#8, 0#8]) = .next t) ∧
    ∃ t, exec .manchesterDecode (withInput [1#8, 0#8]) = .next t := ⟨⟨_, rfl⟩, _, rfl⟩

theorem witness_FailedCommandsWriteOnlyTheReport :
    ∃ t, step { withCodes 0 0 0x10000000 with pending := [.access (.write 0x000 (.b1 0x01#8))] } = .next t ∧
      t.errCode ≠ 0x00#8 := ⟨_, rfl, by decide⟩

theorem witness_EveryCommandOverwritesTheReport :
    ∀ c ∈ [0x00#8, 0x01#8, 0x02#8, 0x03#8, 0x04#8], ∃ t, step (withAccess (.write 0x000 (.b1 c))) = .next t := by
  intro c hc
  simp only [List.mem_cons, List.not_mem_nil, or_false] at hc
  rcases hc with rfl | rfl | rfl | rfl | rfl <;> exact ⟨_, rfl⟩

theorem witness_OnlyCommandsWriteTheReadOnlyState :
    HostEvent.access (.write 0x010 (.b4 1)) ≠ .reset ∧
    (∀ v, HostEvent.access (.write 0x010 (.b4 1)) ≠ .access (.write 0x000 v)) ∧
    ∃ t, step (withAccess (.write 0x010 (.b4 1))) = .next t :=
  ⟨by decide, fun v => by simp, _, rfl⟩

/-- ENCODE_V2 on states that differ in IN and IN_LEN; MANCHESTER_ENCODE on states that differ in ROLLING. -/
theorem witness_ResultsDependOnlyOnTheOperands :
    ((withInput [1#8]).fixedHi = State.reset.fixedHi ∧ (withInput [1#8]).fixedLo = State.reset.fixedLo ∧
      (withInput [1#8]).rolling = State.reset.rolling ∧ (withInput [1#8]).mem.wf = true ∧ State.reset.mem.wf = true ∧
      (∃ t, exec .encodeV2 State.reset = .next t) ∧ ∃ t, exec .encodeV2 (withInput [1#8]) = .next t) ∧
    ({ withInput [1#8] with rolling := 5#32 } : State).inLen = (withInput [1#8]).inLen ∧
      (∃ t, exec .manchesterEncode (withInput [1#8]) = .next t) ∧
      ∃ t, exec .manchesterEncode { withInput [1#8] with rolling := 5#32 } = .next t :=
  ⟨⟨rfl, rfl, rfl, by decide, rfl, ⟨_, rfl⟩, _, rfl⟩, rfl, ⟨_, rfl⟩, _, rfl⟩

theorem witness_RepeatingACommandChangesNothing :
    (withInput [1#8, 0#8]).mem.wf = true ∧ ∃ t, exec .manchesterDecode (withInput [1#8, 0#8]) = .next t :=
  ⟨by decide, _, rfl⟩

theorem witness_LoadvecStoresTheVector :
    ({ State.reset with pending := hostLOADVEC (rep 1#8 256) ++ [] } : State).mem.wf = true ∧
      (rep 1#8 256).length ≤ 256 := ⟨rfl, by rw [rep, List.length_replicate]⟩

theorem witness_CopyoutMovesTheOutputToTheInput :
    ({ State.reset with out0Len := 256#16 } : State).mem.wf = true ∧
      ({ State.reset with out0Len := 256#16 } : State).out0Len.toNat ≤ 256 ∧
      ({ State.reset with
          out0Len := 256#16, pending := hostCOPYOUT0 { State.reset with out0Len := 256#16 } } : State).pending =
        hostCOPYOUT0 { State.reset with
          out0Len := 256#16, pending := hostCOPYOUT0 { State.reset with out0Len := 256#16 } } ++ [] :=
  ⟨rfl, by decide, (List.append_nil _).symm⟩

end Sys2Proof.Tests
end

/-! PROOFS. The buffers' memory: canonical form and equality, writing and reading vectors. -/

namespace Sys2Proof.Machine

/-- Two canonical memories with the same bytes are the same list: the first entry of either is the least offset that
does not read 0x00. -/
theorem Memory.eq_of_read_eq {lo lo' : Nat} {m m' : Memory} (hm : Memory.wfFrom lo m = true)
    (hm' : Memory.wfFrom lo' m' = true) (h : ∀ a, Memory.read m a = Memory.read m' a) : m = m' := by
  induction m generalizing lo lo' m' with
  | nil =>
    cases m' with
    | nil => rfl
    | cons c' m' =>
      rw [Memory.wfFrom_cons] at hm'
      obtain ⟨-, -, hx', -⟩ := hm'
      exact absurd (by simpa [Memory.read] using (h c'.1).symm) hx'
  | cons c m ih =>
    obtain ⟨a, x⟩ := c
    rw [Memory.wfFrom_cons] at hm
    obtain ⟨-, -, hx, hrest⟩ := hm
    cases m' with
    | nil => exact absurd (by simpa [Memory.read] using h a) hx
    | cons c' m' =>
      obtain ⟨a', x'⟩ := c'
      rw [Memory.wfFrom_cons] at hm'
      obtain ⟨-, -, hx', hrest'⟩ := hm'
      have ha := h a
      have ha' := h a'
      obtain hlt | rfl | hgt := Nat.lt_trichotomy a a'
      · have hzero := Memory.read_below (Nat.lt_succ_of_lt hlt) hrest'
        simp only [Memory.read, if_true, if_neg hlt.ne, hzero] at ha
        exact absurd ha hx
      · obtain rfl : x = x' := by simpa [Memory.read] using ha
        have htail : ∀ b, Memory.read m b = Memory.read m' b := fun b => by
          by_cases hb : b = a
          · rw [Memory.read_below (by omega) hrest, Memory.read_below (by omega) hrest']
          · simpa [Memory.read, hb] using h b
        rw [ih hrest hrest' htail]
      · have hzero := Memory.read_below (Nat.lt_succ_of_lt hgt) hrest
        simp only [Memory.read, if_true, if_neg hgt.ne, hzero] at ha'
        exact absurd ha'.symm hx'

/-- Writing a vector leaves every offset outside its range alone. -/
theorem Memory.read_writeVec_outside (v : BitVector) (m : Memory) {base a : Nat}
    (h : a < base ∨ base + v.length ≤ a) : Memory.read (Memory.writeVec m base v) a = Memory.read m a := by
  induction v generalizing m base with
  | nil => rfl
  | cons x v ih =>
    rw [List.length_cons] at h
    rw [Memory.writeVec, ih _ (by omega), Memory.read_write_other _ (by omega)]

/-- In a canonical memory a vector written inside the buffers reads back, element by element. -/
theorem Memory.read_writeVec_inside (v : BitVector) {m : Memory} (hm : m.wf = true) {base : Nat} (h1 : inBase ≤ base)
    (h2 : base + v.length ≤ windowEnd) {i : Nat} (hi : i < v.length) :
    Memory.read (Memory.writeVec m base v) (base + i) = v[i] := by
  induction v generalizing m base i with
  | nil => simp at hi
  | cons x v ih =>
    rw [List.length_cons] at h2 hi
    cases i with
    | zero => rw [Memory.writeVec, Memory.read_writeVec_outside _ _ (by omega)]; exact Memory.read_write_same hm base x
    | succ i =>
      rw [Memory.writeVec, show base + (i + 1) = base + 1 + i by omega]
      exact ih (Memory.wf_write hm h1 (by omega) x) (by omega) (by omega) (by omega)

/-- A vector written inside the buffers of a canonical memory reads back. -/
theorem Memory.readVec_writeVec (v : BitVector) {m : Memory} (hm : m.wf = true) {base : Nat} (h1 : inBase ≤ base)
    (h2 : base + v.length ≤ windowEnd) : (Memory.writeVec m base v).readVec base v.length = v :=
  List.ext_getElem (by simp) fun i _ hi => by
    simpa [Memory.readVec] using Memory.read_writeVec_inside v hm h1 h2 hi

/-- Two memories that agree on a range read the same vector there. -/
theorem Memory.readVec_congr {m m' : Memory} {base n : Nat}
    (h : ∀ i, i < n → Memory.read m (base + i) = Memory.read m' (base + i)) :
    m.readVec base n = m'.readVec base n :=
  List.map_congr_left fun i hi => h i (List.mem_range.mp hi)

/-- After writing a vector of bits, an offset holds a bit if it did before. -/
theorem Memory.isBit_read_writeVec {v : BitVector} (hv : allBits v = true) {m : Memory} (hm : m.wf = true) {base : Nat}
    (h1 : inBase ≤ base) (h2 : base + v.length ≤ windowEnd) {a : Nat} (ha : isBit (Memory.read m a) = true) :
    isBit (Memory.read (Memory.writeVec m base v) a) = true := by
  by_cases hin : a < base ∨ base + v.length ≤ a
  · rwa [Memory.read_writeVec_outside v m hin]
  · obtain ⟨i, rfl⟩ := Nat.exists_eq_add_of_le (show base ≤ a by omega)
    rw [Memory.read_writeVec_inside v hm h1 h2 (by omega)]
    exact List.all_eq_true.mp hv _ (List.getElem_mem _)

end Sys2Proof.Machine

/-! PROOFS. Vectors of bits and their lengths. -/

namespace Sys2Proof.Machine

theorem isBit_iff (x : Byte) : isBit x = true ↔ x = 0x00#8 ∨ x = 0x01#8 := by simp [isBit]

@[simp] theorem isBit_bit (b : Bool) : isBit (bit b) = true := by cases b <;> rfl

/-- Inverting a bit, or not, gives a bit. -/
theorem isBit_xor_bit {x : Byte} (hx : isBit x = true) (b : Bool) : isBit (x ^^^ bit b) = true := by
  obtain rfl | rfl := (isBit_iff x).mp hx <;> cases b <;> rfl

@[simp] theorem allBits_nil : allBits [] = true := rfl

@[simp] theorem allBits_cons (x : Byte) (v : BitVector) : allBits (x :: v) = (isBit x && allBits v) := rfl

@[simp] theorem allBits_append (v w : BitVector) : allBits (v ++ w) = (allBits v && allBits w) := List.all_append

theorem allBits_flatMap {α : Type} {l : List α} {f : α → BitVector} (h : ∀ a ∈ l, allBits (f a) = true) :
    allBits (l.flatMap f) = true := by
  simpa [allBits, List.all_flatMap] using h

theorem allBits_slice {v : BitVector} (h : allBits v = true) (a b : Nat) : allBits (slice v a b) = true :=
  List.all_eq_true.mpr fun x hx => List.all_eq_true.mp h x (List.mem_of_mem_drop (List.mem_of_mem_take hx))

@[simp] theorem allBits_zeros (n : Nat) : allBits (rep 0x00#8 n) = true :=
  List.all_eq_true.mpr fun x hx => by rw [List.eq_of_mem_replicate hx]; rfl

@[simp] theorem allBits_msbBits (x n : Nat) : allBits (msbBits x n) = true := by simp [allBits, msbBits]

/-- An element of a vector of bits, or the 0x00 beyond its end, is a bit. -/
theorem isBit_getD {v : BitVector} (h : allBits v = true) (i : Nat) : isBit (v.getD i 0x00#8) = true := by
  by_cases hi : i < v.length
  · rw [List.getD_eq_getElem _ _ hi]
    exact List.all_eq_true.mp h _ (List.getElem_mem hi)
  · rw [List.getD_eq_default _ _ (Nat.le_of_not_lt hi)]
    rfl

theorem allBits_set {v : BitVector} (h : allBits v = true) (i : Nat) {x : Byte} (hx : isBit x = true) :
    allBits (v.set i x) = true :=
  List.all_eq_true.mpr fun y hy => (List.mem_or_eq_of_mem_set hy).elim (List.all_eq_true.mp h y) fun e => e ▸ hx

@[simp] theorem length_slice {α : Type} (v : List α) (a b : Nat) :
    (slice v a b).length = min (b - a) (v.length - a) := by
  simp [slice]

@[simp] theorem length_msbBits (x n : Nat) : (msbBits x n).length = n := by simp [msbBits]

end Sys2Proof.Machine

/-! PROOFS. A postcondition for results that can be errors, and which errors a command can report. -/

namespace Sys2Proof.Machine

/-- The result is a value that satisfies `ok` or an error that satisfies `err`. -/
def Satisfies {ε α : Type} (ok : α → Prop) (err : ε → Prop) : Except ε α → Prop
  | .ok a => ok a
  | .error e => err e

section
variable {ε α β : Type} {ok : α → Prop} {ok' : β → Prop} {err err' : ε → Prop} {r : Except ε α}

theorem Satisfies.map (h : Satisfies ok err r) {f : α → β} (hf : ∀ a, ok a → ok' (f a)) :
    Satisfies ok' err (r.map f) := by
  cases r with
  | ok a => exact hf a h
  | error e => exact h

theorem Satisfies.bind (h : Satisfies ok err r) {f : α → Except ε β} (hf : ∀ a, ok a → Satisfies ok' err (f a)) :
    Satisfies ok' err (r.bind f) := by
  cases r with
  | ok a => exact hf a h
  | error e => exact h

theorem Satisfies.imp {ok₂ : α → Prop} (h : Satisfies ok err r) (hok : ∀ a, ok a → ok₂ a)
    (herr : ∀ e, err e → err' e) : Satisfies ok₂ err' r := by
  cases r with
  | ok a => exact hok a h
  | error e => exact herr e h

theorem Satisfies.atPosition {err : ErrorKind → Prop} {r : Except ErrorKind α} (h : Satisfies ok err r) (pos : Nat) :
    Satisfies ok (fun e => err e.kind ∧ e.pos = pos) (atPosition pos r) := by
  cases r with
  | ok a => exact h
  | error kind => exact ⟨h, rfl⟩

end

/-- The errors that a CMD write reports: no indicator error (R120), and the position within the bounds and the kinds
of R172. -/
structure CommandError.Reportable (e : CommandError) : Prop where
  notIndicator : e.kind ≠ .unknownOrderIndicator ∧ e.kind ≠ .unknownInversionIndicator
  posSmall : e.pos < 256
  posZero : e.kind ≠ .manchesterInvalidBit → e.kind ≠ .manchesterInvalidTransition → e.pos = 0

theorem ErrorKind.code_ne_zero (k : ErrorKind) : k.code ≠ 0x00#8 := by cases k <;> decide

/-- The codes of the kinds that are no indicator error (R170). -/
theorem ErrorKind.code_known (k : ErrorKind) :
    k ≠ .unknownOrderIndicator ∧ k ≠ .unknownInversionIndicator →
    k.code.toNat ≤ 8 ∧ k.code ≠ 0x02#8 ∧ k.code ≠ 0x03#8 := by
  cases k <;> decide

/-- An error at position 0 is reportable when its kind is no indicator error. -/
theorem CommandError.reportable_at_zero {k : ErrorKind}
    (h : k ≠ .unknownOrderIndicator ∧ k ≠ .unknownInversionIndicator) : CommandError.Reportable ⟨k, 0⟩ :=
  ⟨h, Nat.zero_lt_succ 255, fun _ _ => rfl⟩

/-- An invalid bit or transition is reportable at every position below 256. -/
theorem CommandError.reportable_at {k : ErrorKind} (h : k = .manchesterInvalidBit ∨ k = .manchesterInvalidTransition)
    {p : Nat} (hp : p < 256) : CommandError.Reportable ⟨k, p⟩ := by
  obtain rfl | rfl := h
  · exact ⟨⟨nofun, nofun⟩, hp, fun h _ => absurd rfl h⟩
  · exact ⟨⟨nofun, nofun⟩, hp, fun _ h => absurd rfl h⟩

/-- A vector of n elements, all of them bits. -/
def IsBits (n : Nat) (v : BitVector) : Prop := v.length = n ∧ allBits v = true

end Sys2Proof.Machine

/-! PROOFS. What the Manchester coder and decoder answer (R150, R151). -/

namespace Sys2Proof.Machine

/-- The encoder answers two bits per element, or the error of an element that is no bit. -/
theorem manchesterEncodeFrom_satisfies {err : CommandError → Prop} {m : Nat} {v : BitVector}
    (herr : ∀ i (hi : i < v.length), isBit v[i] = false → err ⟨.manchesterInvalidBit, m + i⟩) :
    Satisfies (IsBits (2 * v.length)) err (manchesterEncodeFrom m v) := by
  induction v generalizing m with
  | nil => exact ⟨rfl, rfl⟩
  | cons x v ih =>
    have hrest := ih (m := m + 1) fun i hi hbit => by
      simpa [Nat.add_assoc, Nat.add_comm 1 i] using herr (i + 1) (by simpa using hi) (by simpa using hbit)
    have hpair : ∀ {y z : Byte}, isBit y = true → isBit z = true →
        ∀ w, IsBits (2 * v.length) w → IsBits (2 * (x :: v).length) ([y, z] ++ w) := by
      rintro y z hy hz w ⟨hlen, hbits⟩
      exact ⟨by simp [hlen]; omega, by simp [hy, hz, hbits]⟩
    rw [manchesterEncodeFrom]
    split_ifs with h0 h1
    · exact hrest.map (hpair rfl rfl)
    · exact hrest.map (hpair rfl rfl)
    · exact herr 0 (by simp) (by simp [isBit, h0, h1])

/-- The encoder never fails on a vector of bits. -/
theorem manchesterEncode_bits {n : Nat} {v : BitVector} (h : IsBits n v) :
    Satisfies (IsBits (2 * n)) (fun _ => False) (manchesterEncode v) := by
  obtain ⟨rfl, hbits⟩ := h
  refine manchesterEncodeFrom_satisfies fun i hi hno => ?_
  rw [List.all_eq_true.mp hbits _ (List.getElem_mem hi)] at hno
  cases hno

/-- The encoder's error on a vector of at most 256 elements is reportable. -/
theorem manchesterEncode_satisfies {v : BitVector} (h : v.length ≤ 256) :
    Satisfies (IsBits (2 * v.length)) CommandError.Reportable (manchesterEncode v) :=
  manchesterEncodeFrom_satisfies fun _ _ _ => CommandError.reportable_at (.inl rfl) (by omega)

/-- The decoder's loop answers one bit per pair, or a reportable error. -/
theorem manchesterDecodeFrom_satisfies {pos : Nat} {w : BitVector} (h : pos + w.length ≤ 256) :
    Satisfies (IsBits (w.length / 2)) CommandError.Reportable (manchesterDecodeFrom pos w) := by
  induction pos, w using manchesterDecodeFrom.induct with
  | case1 pos a c w hbad =>
    rw [manchesterDecodeFrom, if_pos hbad]
    exact CommandError.reportable_at (.inl rfl) (by simp at h; omega)
  | case2 pos c w hbad =>
    rw [manchesterDecodeFrom, if_neg hbad, if_pos rfl]
    exact CommandError.reportable_at (.inr rfl) (by simp at h; omega)
  | case3 pos a c w hbad hne ih =>
    rw [manchesterDecodeFrom, if_neg hbad, if_neg hne]
    refine (ih (by simp at h; omega)).map fun v ⟨hlen, hbits⟩ => ⟨by simp [hlen]; omega, ?_⟩
    split_ifs <;> simpa [isBit] using hbits
  | case4 => exact CommandError.reportable_at_zero (by decide)
  | case5 => exact ⟨rfl, rfl⟩

theorem manchesterDecode_satisfies {w : BitVector} (h : w.length ≤ 256) :
    Satisfies (IsBits (w.length / 2)) CommandError.Reportable (manchesterDecode w) := by
  unfold manchesterDecode
  split_ifs
  · exact CommandError.reportable_at_zero (by decide)
  · exact manchesterDecodeFrom_satisfies (by omega)

/-- The operand of a Manchester command has at most 256 elements. -/
theorem inputVector_satisfies (s : State) :
    Satisfies (fun v => v.length ≤ 256) CommandError.Reportable s.inputVector := by
  by_cases h : s.inLen.toNat ≤ 256
  · rw [s.inputVector_ok h]
    exact (Memory.length_readVec _ _ _).trans_le h
  · rw [s.inputVector_error (Nat.lt_of_not_le h)]
    exact CommandError.reportable_at_zero (by decide)

end Sys2Proof.Machine

/-! PROOFS. What the ENCODE commands' sub-functions answer: the splitter, the transformer, the assembler, the bursts. -/

namespace Sys2Proof.Machine

/-- The splitter answers two vectors of bits, each of two part lengths (R93, R115). -/
theorem fixedSplit_bits (hi : BitVec 8) (lo : BitVec 64) :
    IsBits (2 * partLength (isLong hi lo)) (fixedSplit hi lo).half1 ∧
    IsBits (2 * partLength (isLong hi lo)) (fixedSplit hi lo).half2 := by
  cases h : isLong hi lo with
  | false =>
    simp only [fixedSplit, h, splitShort, partLength, Bool.false_eq_true, if_false]
    exact ⟨⟨by simp, allBits_slice (by simp) _ _⟩, by simp, allBits_slice (by simp) _ _⟩
  | true =>
    simp only [fixedSplit, h, splitLong, partLength, if_true]
    exact ⟨⟨by simp, allBits_slice (by simp) _ _⟩, by simp, allBits_slice (by simp) _ _⟩

/-- The nine keys that have an entry in both tables (R118, R119). -/
def validKeys : List Nat := [0, 1, 2, 4, 5, 6, 8, 9, 10]

theorem romOrder_validKeys (ext : OrderExt) {k : Nat} (h : k ∈ validKeys) : ∃ p, romOrder ext k = some p := by
  simp only [validKeys, List.mem_cons, List.not_mem_nil, or_false] at h
  rcases h with rfl | rfl | rfl | rfl | rfl | rfl | rfl | rfl | rfl <;> exact ⟨_, rfl⟩

theorem romInv_validKeys (ext : InvExt) {k : Nat} (h : k ∈ validKeys) : ∃ m, romInv ext k = some m := by
  simp only [validKeys, List.mem_cons, List.not_mem_nil, or_false] at h
  rcases h with rfl | rfl | rfl | rfl | rfl | rfl | rfl | rfl | rfl <;> exact ⟨_, rfl⟩

/-- What the assembler needs of a rolling half: 18 bits, and keys that have an entry (R105). -/
structure IsRollingHalf (h : BitVector) : Prop where
  bits : IsBits 18 h
  orderKey : orderKey h ∈ validKeys
  inversionKey : inversionKey h ∈ validKeys

@[simp] theorem length_trits (rev : Nat) : (trits rev).length = 18 := rfl

@[simp] theorem length_piece (t : List Trit) (a b : Nat) : (piece t a b).length = 2 * (slice t a b).length := by
  simp [piece, List.length_flatMap, sym, Nat.mul_comm]

@[simp] theorem allBits_piece (t : List Trit) (a b : Nat) : allBits (piece t a b) = true :=
  allBits_flatMap fun x _ => (by decide : ∀ x : Trit, allBits (sym x) = true) x

/-- The symbols of two trits spell a valid key. -/
theorem bvToNat_sym_sym : ∀ x y : Trit, bvToNat (sym x ++ sym y) ∈ validKeys := by decide

/-- A vector that begins with four trit symbols has valid keys. -/
theorem keys_of_symbols (a b c d : Trit) (rest : BitVector) :
    orderKey (sym a ++ sym b ++ sym c ++ sym d ++ rest) ∈ validKeys ∧
    inversionKey (sym a ++ sym b ++ sym c ++ sym d ++ rest) ∈ validKeys :=
  ⟨bvToNat_sym_sym a b, bvToNat_sym_sym c d⟩

/-- A piece of four trits is the symbols of the four, so what begins with it has valid keys. -/
theorem keys_of_piece {t : List Trit} {a : Nat} (h : a + 4 ≤ t.length) (rest : BitVector) :
    orderKey (piece t a (a + 4) ++ rest) ∈ validKeys ∧ inversionKey (piece t a (a + 4) ++ rest) ∈ validKeys := by
  have hlen : (slice t a (a + 4)).reverse.length = 4 := by simp; omega
  rw [piece]
  match (slice t a (a + 4)).reverse, hlen with
  | [x, y, z, u], _ => exact keys_of_symbols x y z u rest

theorem isRollingHalf_halfA {t : List Trit} (ht : t.length = 18) : IsRollingHalf (halfA t) where
  bits := ⟨by simp [halfA, ht], by simp [halfA]⟩
  orderKey := by rw [halfA, List.append_assoc]; exact (keys_of_piece (by omega) _).1
  inversionKey := by rw [halfA, List.append_assoc]; exact (keys_of_piece (by omega) _).2

theorem isRollingHalf_halfB {t : List Trit} (ht : t.length = 18) : IsRollingHalf (halfB t) where
  bits := ⟨by simp [halfB, ht], by simp [halfB]⟩
  orderKey := by rw [halfB, List.append_assoc]; exact (keys_of_piece (by omega) _).1
  inversionKey := by rw [halfB, List.append_assoc]; exact (keys_of_piece (by omega) _).2

theorem rollingTransform_satisfies (r : BitVec 32) :
    Satisfies (fun h => IsRollingHalf h.1 ∧ IsRollingHalf h.2) (· = .rollingOutOfRange) (rollingTransform r) := by
  unfold rollingTransform
  split_ifs
  · rfl
  · exact ⟨isRollingHalf_halfA (length_trits _), isRollingHalf_halfB (length_trits _)⟩

theorem allBits_paddedPart {rolling : BitVector} (h : allBits rolling = true) (p : Nat) :
    allBits (paddedPart rolling p) = true := by
  simp [paddedPart, allBits_slice h]

theorem allBits_overwritePart {rolling part : BitVector} (hr : allBits rolling = true) (hp : allBits part = true)
    (p : Nat) : allBits (overwritePart rolling part p) = true :=
  List.foldlRecOn (motive := fun v => allBits v = true) _ _ hp fun _ hv _ _ => allBits_set hv _ (isBit_getD hr _)

/-- The parts of a packet are vectors of bits. -/
theorem allBits_makeParts {fixed rolling : BitVector} (hf : allBits fixed = true) (hr : allBits rolling = true)
    (long : Bool) (j : Fin 3) : allBits ((makeParts fixed rolling long).get j) = true := by
  match j with
  | 0 => exact allBits_slice hf _ _
  | 1 => exact allBits_slice hf _ _
  | 2 =>
    cases long with
    | false => exact allBits_paddedPart hr _
    | true => exact allBits_overwritePart hr (allBits_paddedPart hr _) _

/-- The length L of a packet (R79). -/
def packetLength (long : Bool) : Nat := 10 + 3 * partLength long

theorem allBits_emitTriple {ps : Parts} (hps : ∀ j, allBits (ps.get j) = true) (inv : InvMask) (i : Nat) :
    allBits (emitTriple ps inv i) = true := by
  have hxor := fun j b => isBit_xor_bit (isBit_getD (hps j) i) b
  simp only [emitTriple, allBits_cons, allBits_nil, Bool.and_eq_true]
  exact ⟨hxor 0 _, hxor 1 _, hxor 2 _, trivial⟩

/-- A packet of parts of bits is a vector of bits of length L. -/
theorem emitPacket_bits {rolling : BitVector} (hr : IsBits 18 rolling) (long : Bool) {ps : Parts}
    (hps : ∀ j, allBits (ps.get j) = true) (inv : InvMask) :
    IsBits (packetLength long) (emitPacket rolling long ps inv) := by
  obtain ⟨hlen, hbits⟩ := hr
  have hbody := allBits_flatMap (l := List.range (partLength long)) fun i _ => allBits_emitTriple hps inv i
  refine ⟨?_, by simp [emitPacket, allBits_slice hbits, hbody]⟩
  simp [emitPacket, packetLength, List.length_flatMap, emitTriple, hlen]
  omega

/-- The assembler never fails on a rolling half, and answers a packet of bits of length L. -/
theorem encodeHalf_satisfies (oe : OrderExt) (ie : InvExt) {fixed rolling : BitVector} (hf : allBits fixed = true)
    (hr : IsRollingHalf rolling) (long : Bool) :
    Satisfies (IsBits (packetLength long)) (fun _ => False) (encodeHalf oe ie fixed rolling long) := by
  obtain ⟨order, horder⟩ := romOrder_validKeys oe hr.orderKey
  obtain ⟨inv, hinv⟩ := romInv_validKeys ie hr.inversionKey
  simp only [encodeHalf, horder, hinv]
  refine emitPacket_bits hr.bits long (fun j => ?_) inv
  match j with
  | 0 | 1 | 2 => exact allBits_makeParts hf hr.bits.2 long _

/-- EncodeV2 answers two packets of bits of length L, or the range error at position 0, and no other (R120, R135). -/
theorem encodeV2_satisfies (oe : OrderExt) (ie : InvExt) (hi : BitVec 8) (lo : BitVec 64) (r : BitVec 32) :
    Satisfies (fun p => IsBits (packetLength (isLong hi lo)) p.1 ∧ IsBits (packetLength (isLong hi lo)) p.2)
      (· = ⟨.rollingOutOfRange, 0⟩) (encodeV2 oe ie hi lo r) := by
  obtain ⟨hf1, hf2⟩ := fixedSplit_bits hi lo
  have hroll := ((rollingTransform_satisfies r).atPosition 0).imp (err' := (· = ⟨.rollingOutOfRange, 0⟩))
    (fun _ => id) fun e ⟨hk, hp⟩ => by cases e; cases hk; cases hp; rfl
  refine hroll.bind fun h ⟨hA, hB⟩ => ?_
  refine (((encodeHalf_satisfies oe ie hf1.2 hA _).atPosition 0).imp (fun _ => id) fun _ h => h.1.elim).bind
    fun p0 h0 => ?_
  refine (((encodeHalf_satisfies oe ie hf2.2 hB _).atPosition 1).imp (fun _ => id) fun _ h => h.1.elim).bind
    fun p1 h1 => ?_
  exact ⟨h0, h1⟩

/-- A burst of a packet of bits never fails; it has 2·(22+L) bits (R80, R137). -/
theorem burst_satisfies (index : Bool) {n : Nat} {p : BitVector} (h : IsBits n p) :
    Satisfies (IsBits (2 * (22 + n))) (fun _ => False) (burst index p) := by
  obtain ⟨hlen, hbits⟩ := h
  have hsync : IsBits 20 syncRom := ⟨rfl, rfl⟩
  refine manchesterEncode_bits ⟨?_, by simp [hsync.2, hbits]⟩
  simp [hsync.1, hlen]
  omega

/-- The two bursts of a message, or the range error of EncodeV2 (R138). -/
theorem encodeV2Bursts_satisfies (oe : OrderExt) (ie : InvExt) (hi : BitVec 8) (lo : BitVec 64) (r : BitVec 32) :
    Satisfies (fun b => IsBits (2 * (22 + packetLength (isLong hi lo))) b.1 ∧
        IsBits (2 * (22 + packetLength (isLong hi lo))) b.2)
      (· = ⟨.rollingOutOfRange, 0⟩) (encodeV2Bursts oe ie hi lo r) := by
  refine (encodeV2_satisfies oe ie hi lo r).bind fun p ⟨h0, h1⟩ => ?_
  refine ((burst_satisfies false h0).imp (fun _ => id) fun _ h => h.elim).bind fun b0 hb0 => ?_
  refine ((burst_satisfies true h1).imp (fun _ => id) fun _ h => h.elim).bind fun b1 hb1 => ?_
  exact ⟨hb0, hb1⟩

end Sys2Proof.Machine

/-! PROOFS. Everything a command can do to the state, said once. -/

namespace Sys2Proof.Machine

/-- A Manchester command's result: a vector of bits that fits in OUT0, or a reportable error. -/
def SingleResult : Except CommandError BitVector → Prop :=
  Satisfies (fun v => v.length ≤ Config.outCap ∧ allBits v = true) CommandError.Reportable

/-- An ENCODE command's result: two vectors of bits, both as long as a packet or a burst (R139), or a reportable
error. -/
def PairResult : Except CommandError (BitVector × BitVector) → Prop :=
  Satisfies (fun p => ∃ n ∈ [40, 64, 124, 172], IsBits n p.1 ∧ IsBits n p.2) CommandError.Reportable

theorem manchesterEncode_result (s : State) : SingleResult (s.inputVector.bind manchesterEncode) :=
  (inputVector_satisfies s).bind fun v hv =>
    (manchesterEncode_satisfies hv).imp (fun _ ⟨hlen, hbits⟩ => ⟨by simp only [Config.outCap]; omega, hbits⟩)
      fun _ => id

theorem manchesterDecode_result (s : State) : SingleResult (s.inputVector.bind manchesterDecode) :=
  (inputVector_satisfies s).bind fun v hv =>
    (manchesterDecode_satisfies hv).imp (fun _ ⟨hlen, hbits⟩ => ⟨by simp only [Config.outCap]; omega, hbits⟩)
      fun _ => id

/-- The range error is reportable. -/
theorem reportable_of_rangeError (e : CommandError) (h : e = ⟨.rollingOutOfRange, 0⟩) : e.Reportable :=
  h ▸ CommandError.reportable_at_zero (by decide)

theorem encodeV2_result (oe : OrderExt) (ie : InvExt) (hi : BitVec 8) (lo : BitVec 64) (r : BitVec 32) :
    PairResult (encodeV2 oe ie hi lo r) :=
  (encodeV2_satisfies oe ie hi lo r).imp (fun _ h => ⟨_, by cases isLong hi lo <;> decide, h⟩) reportable_of_rangeError

theorem encodeV2Bursts_result (oe : OrderExt) (ie : InvExt) (hi : BitVec 8) (lo : BitVec 64) (r : BitVec 32) :
    PairResult (encodeV2Bursts oe ie hi lo r) :=
  (encodeV2Bursts_satisfies oe ie hi lo r).imp (fun _ h => ⟨_, by cases isLong hi lo <;> decide, h⟩)
    reportable_of_rangeError

/-- What performing a command can make of a state: report an error, or write one or two vectors of bits and clear the
report (R136, R138, R152, R154, R171). -/
inductive CommandEffect (s : State) : State → Prop
  | error {e : CommandError} (he : e.Reportable) : CommandEffect s (s.raise e)
  | single {v : BitVector} (hlen : v.length ≤ Config.outCap) (hbits : allBits v = true) :
    CommandEffect s (s.putOut0 v).clearError
  | pair {n : Nat} {v0 v1 : BitVector} (hn : n ∈ [40, 64, 124, 172]) (h0 : IsBits n v0) (h1 : IsBits n v1) :
    CommandEffect s (s.putOutPair v0 v1).clearError

theorem SingleResult.effect (s : State) {r : Except CommandError BitVector} (h : SingleResult r) :
    CommandEffect s (s.finishSingle r) := by
  match r, h with
  | .ok _, ⟨hlen, hbits⟩ => exact .single hlen hbits
  | .error _, he => exact .error he

theorem PairResult.effect (s : State) {r : Except CommandError (BitVector × BitVector)} (h : PairResult r) :
    CommandEffect s (s.finishPair r) := by
  match r, h with
  | .ok (_, _), ⟨_, hn, h0, h1⟩ => exact .pair hn h0 h1
  | .error _, he => exact .error he

/-- The inversion of `exec`: every command has one of the three effects. -/
theorem exec_effect {i : Instr} {s t : State} (h : exec i s = .next t) : CommandEffect s t := by
  cases i with
  | encodeV2 => rw [exec_encodeV2] at h; cases h; exact (encodeV2_result ..).effect s
  | encodeV2Bursts => rw [exec_encodeV2Bursts] at h; cases h; exact (encodeV2Bursts_result ..).effect s
  | manchesterEncode => rw [exec_manchesterEncode] at h; cases h; exact (manchesterEncode_result s).effect s
  | manchesterDecode => rw [exec_manchesterDecode] at h; cases h; exact (manchesterDecode_result s).effect s

/-- A CMD write stores the code, and then has one of the three effects: a reserved code is an error too (R22, R74). -/
theorem commandWrite_effect {c : Byte} {s t : State} (h : commandWrite c s = .next t) :
    CommandEffect { s with cmd := c } t := by
  obtain ⟨i, -, hrun⟩ | ⟨-, hrun⟩ := commandWrite_cases c s
  · exact exec_effect (hrun ▸ h)
  · rw [hrun] at h
    cases h
    exact .error (CommandError.reportable_at_zero (by decide))

section
variable {s t : State} (h : CommandEffect s t)
include h

/-- A command leaves its operand registers and the host's lists alone. -/
theorem CommandEffect.operands :
    t.cmd = s.cmd ∧ t.inLen = s.inLen ∧ t.fixedHi = s.fixedHi ∧ t.rolling = s.rolling ∧ t.fixedLo = s.fixedLo ∧
    t.pending = s.pending ∧ t.returned = s.returned := by
  cases h <;> exact ⟨rfl, rfl, rfl, rfl, rfl, rfl, rfl⟩

/-- A command writes no byte below OUT0. -/
theorem CommandEffect.read_below_out0 {a : Nat} (ha : a < out0Base) : t.mem.read a = s.mem.read a := by
  have ha1 : a < out1Base := ha.trans (by decide)
  cases h with
  | error => rfl
  | single => exact Memory.read_writeVec_outside _ _ (.inl ha)
  | pair => exact (Memory.read_writeVec_outside _ _ (.inl ha1)).trans (Memory.read_writeVec_outside _ _ (.inl ha))

/-- The report that a command leaves (R23, R24, R170, R172). -/
theorem CommandEffect.report :
    (t.errCode.toNat ≤ 8 ∧ t.errCode ≠ 0x02#8 ∧ t.errCode ≠ 0x03#8) ∧ t.errPos.toNat < 256 ∧
    (t.errCode ≠ 0x04#8 → t.errCode ≠ 0x06#8 → t.errPos = 0x0000#16) := by
  cases h with
  | @error e he =>
    refine ⟨e.kind.code_known he.notIndicator, ?_, fun h4 h6 => ?_⟩
    · exact (BitVec.toNat_ofNat _ _).trans_lt ((Nat.mod_le _ _).trans_lt he.posSmall)
    · have hzero := he.posZero (fun hk => h4 (congrArg ErrorKind.code hk)) fun hk => h6 (congrArg ErrorKind.code hk)
      rw [State.raise_errPos, hzero]
  | single => exact ⟨⟨Nat.zero_le _, by simp, by simp⟩, by simp, fun _ _ => rfl⟩
  | pair => exact ⟨⟨Nat.zero_le _, by simp, by simp⟩, by simp, fun _ _ => rfl⟩

end

end Sys2Proof.Machine

/-! PROOFS. The invariant of the block: every command and every host event keeps it. -/

namespace Sys2Proof.Machine

/-- The invariant speaks only of the memory, the report and the two output lengths. -/
theorem State.Inv.of_eq {s t : State} (hs : s.Inv) (hmem : t.mem = s.mem) (hcode : t.errCode = s.errCode)
    (hpos : t.errPos = s.errPos) (h0 : t.out0Len = s.out0Len) (h1 : t.out1Len = s.out1Len) : t.Inv where
  memCanonical := hmem ▸ hs.memCanonical
  errCodeKnown := hcode ▸ hs.errCodeKnown
  errPosSmall := hpos ▸ hs.errPosSmall
  errPosZero := by rw [hcode, hpos]; exact hs.errPosZero
  out0LenSmall := h0 ▸ hs.out0LenSmall
  out1LenKnown := h1 ▸ hs.out1LenKnown
  outputsAreBits := hmem ▸ hs.outputsAreBits

/-- A state with an empty memory, a zero report and zero output lengths, as reset leaves it, meets the invariant. -/
theorem State.Inv.of_reset {t : State} (hmem : t.mem = []) (hcode : t.errCode = 0x00#8) (hpos : t.errPos = 0x0000#16)
    (h0 : t.out0Len = 0x0000#16) (h1 : t.out1Len = 0x0000#16) : t.Inv where
  memCanonical := by rw [hmem]; rfl
  errCodeKnown := by rw [hcode]; decide
  errPosSmall := by rw [hpos]; decide
  errPosZero := fun _ _ => hpos
  out0LenSmall := by rw [h0]; decide
  out1LenKnown := by rw [h1]; decide
  outputsAreBits := fun a _ => .inl (by rw [hmem]; rfl)

theorem inputWrite_keeps_inv {s : State} (hs : s.Inv) {i : Nat} (hi : i < 256) (x : Byte) :
    State.Inv { s with mem := s.mem.write (inBase + i) x } where
  memCanonical := Memory.wf_write hs.memCanonical (by omega) (by simp only [inBase, windowEnd]; omega) x
  errCodeKnown := hs.errCodeKnown
  errPosSmall := hs.errPosSmall
  errPosZero := hs.errPosZero
  out0LenSmall := hs.out0LenSmall
  out1LenKnown := hs.out1LenKnown
  outputsAreBits := fun a ha => by
    have hne : a ≠ inBase + i := by obtain ⟨h0, -⟩ := ha; simp only [inBase, out0Base] at *; omega
    rw [Memory.read_write_other _ hne]
    exact hs.outputsAreBits a ha

/-- Performing a command keeps the invariant, with an error or without. -/
theorem CommandEffect.keeps_inv {s t : State} (hs : s.Inv) (h : CommandEffect s t) : t.Inv := by
  obtain ⟨hcode, hpos, hzero⟩ := h.report
  have hbit := fun a ha => (isBit_iff _).mpr (hs.outputsAreBits a ha)
  cases h with
  | error he => exact ⟨hs.memCanonical, hcode, hpos, hzero, hs.out0LenSmall, hs.out1LenKnown, hs.outputsAreBits⟩
  | @single v hlen hbits =>
    simp only [Config.outCap] at hlen
    have hfit : out0Base + v.length ≤ windowEnd := by simp only [out0Base, windowEnd]; omega
    exact
      { memCanonical := Memory.wf_writeVec v hs.memCanonical (by decide) hfit
        errCodeKnown := hcode
        errPosSmall := hpos
        errPosZero := hzero
        out0LenSmall := by simpa [Config.outCap] using (Nat.mod_le _ _).trans hlen
        out1LenKnown := hs.out1LenKnown
        outputsAreBits := fun a ha => (isBit_iff _).mp <|
          Memory.isBit_read_writeVec hbits hs.memCanonical (by decide) hfit (hbit a ha) }
  | @pair n v0 v1 hn h0 h1 =>
    obtain ⟨hlen0, hbits0⟩ := h0
    obtain ⟨hlen1, hbits1⟩ := h1
    have hn172 : n ≤ 172 := (by decide : ∀ n ∈ [40, 64, 124, 172], n ≤ 172) n hn
    have hfit0 : out0Base + v0.length ≤ windowEnd := by simp only [out0Base, windowEnd]; omega
    have hfit1 : out1Base + v1.length ≤ windowEnd := by simp only [out1Base, windowEnd]; omega
    have hwf := Memory.wf_writeVec v0 hs.memCanonical (by decide) hfit0
    have hlen : (BitVec.ofNat 16 v0.length).toNat = n := by simp; omega
    exact
      { memCanonical := Memory.wf_writeVec v1 hwf (by decide) hfit1
        errCodeKnown := hcode
        errPosSmall := hpos
        errPosZero := hzero
        out0LenSmall := hlen.le.trans (hn172.trans (by decide))
        out1LenKnown := hlen.symm ▸ List.mem_cons_of_mem 0 hn
        outputsAreBits := fun a ha => (isBit_iff _).mp <|
          Memory.isBit_read_writeVec hbits1 hwf (by decide) hfit1 <|
            Memory.isBit_read_writeVec hbits0 hs.memCanonical (by decide) hfit0 (hbit a ha) }

theorem hostRead_keeps_inv {a : Nat} {n : AccessSize} {s t : State} (hs : s.Inv) (h : hostRead a n s = .next t) :
    t.Inv := by
  obtain ⟨x, -, rfl⟩ := hostRead_cases h
  exact hs.of_eq rfl rfl rfl rfl rfl

theorem hostWrite_keeps_inv {a : Nat} {v : HostValue} {s t : State} (hs : s.Inv) (h : hostWrite a v s = .next t) :
    t.Inv := by
  obtain ⟨c, -, -, hc⟩ | ⟨x, -, -, rfl⟩ | ⟨x, -, -, rfl⟩ | ⟨x, -, -, rfl⟩ | ⟨x, -, -, rfl⟩ |
    ⟨i, x, hi, -, -, rfl⟩ := hostWrite_cases h
  · exact CommandEffect.keeps_inv (s := { s with cmd := c }) (hs.of_eq rfl rfl rfl rfl rfl) (commandWrite_effect hc)
  · exact hs.of_eq rfl rfl rfl rfl rfl
  · exact hs.of_eq rfl rfl rfl rfl rfl
  · exact hs.of_eq rfl rfl rfl rfl rfl
  · exact hs.of_eq rfl rfl rfl rfl rfl
  · exact inputWrite_keeps_inv hs hi x

/-- Every step that answers a next state keeps the invariant. -/
theorem step_keeps_inv {s t : State} (hs : s.Inv) (h : step s = .next t) : t.Inv := by
  have htaken : ∀ rest, State.Inv { s with pending := rest } := fun _ => hs.of_eq rfl rfl rfl rfl rfl
  obtain ⟨-, rfl⟩ | ⟨rest, -, rfl⟩ | ⟨a, n, rest, -, hr⟩ | ⟨a, v, rest, -, hw⟩ := step_cases h
  · exact hs
  · exact .of_reset rfl rfl rfl rfl rfl
  · exact hostRead_keeps_inv (htaken rest) hr
  · exact hostWrite_keeps_inv (htaken rest) hw

end Sys2Proof.Machine

/-! PROOFS. What a command's outcome depends on: not on the old report, and only on its operands. -/

namespace Sys2Proof.Machine

/-- What a command does is the same whatever the report was before it. -/
theorem exec_ignores_report (i : Instr) (s : State) (x : BitVec 8) (y : BitVec 16) :
    exec i { s with errCode := x, errPos := y } = exec i s := by
  have hsingle : ∀ r, State.finishSingle { s with errCode := x, errPos := y } r = s.finishSingle r := by
    intro r; cases r <;> rfl
  have hpair : ∀ r, State.finishPair { s with errCode := x, errPos := y } r = s.finishPair r := by
    intro r; rcases r with e | ⟨v0, v1⟩ <;> rfl
  cases i with
  | encodeV2 => exact congrArg Host.Outcome.next (hpair _)
  | encodeV2Bursts => exact congrArg Host.Outcome.next (hpair _)
  | manchesterEncode => exact congrArg Host.Outcome.next (hsingle _)
  | manchesterDecode => exact congrArg Host.Outcome.next (hsingle _)

/-- What a CMD write does is the same whatever the report was before it (R172, R174). -/
theorem commandWrite_ignores_report (c : Byte) (s : State) (x : BitVec 8) (y : BitVec 16) :
    commandWrite c { s with errCode := x, errPos := y } = commandWrite c s := by
  cases h : decodeCode c with
  | some i =>
    obtain rfl := (decodeCode_eq_some c i).mp h
    rw [commandWrite_code, commandWrite_code]
    exact exec_ignores_report i { s with cmd := i.code } x y
  | none => rw [commandWrite_reserved h, commandWrite_reserved h]; rfl

/-- Two states report the same, and without an error hold the same in OUT0_LEN and OUT0[0..OUT0_LEN). -/
def SameResult0 (t t' : State) : Prop :=
  t'.errCode = t.errCode ∧ t'.errPos = t.errPos ∧
  (t.errCode = 0x00#8 →
    t'.out0Len = t.out0Len ∧ t'.mem.readVec out0Base t.out0Len.toNat = t.mem.readVec out0Base t.out0Len.toNat)

/-- Without an error two states hold the same in OUT1_LEN and OUT1[0..OUT1_LEN). -/
def SameResult1 (t t' : State) : Prop :=
  t.errCode = 0x00#8 →
    t'.out1Len = t.out1Len ∧ t'.mem.readVec out1Base t.out1Len.toNat = t.mem.readVec out1Base t.out1Len.toNat

/-- An error leaves no outputs to compare: no kind has the code of success. -/
theorem SameResult0.of_error (s s' : State) (e : CommandError) : SameResult0 (s.raise e) (s'.raise e) :=
  ⟨rfl, rfl, fun h => absurd h e.kind.code_ne_zero⟩

/-- A length within the buffers is stored as it is. -/
theorem toNat_storedLength {n : Nat} (h : n ≤ Config.outCap) : (BitVec.ofNat 16 n).toNat = n := by
  simp only [Config.outCap] at h
  simp
  omega

section
variable {s : State} (hs : s.mem.wf = true)
include hs

theorem readVec_putOut0 {v : BitVector} (hv : v.length ≤ Config.outCap) :
    (s.putOut0 v).mem.readVec out0Base (s.putOut0 v).out0Len.toNat = v := by
  rw [State.putOut0_out0Len, toNat_storedLength hv]
  simp only [Config.outCap] at hv
  exact Memory.readVec_writeVec v hs (by decide) (by simp only [out0Base, windowEnd]; omega)

variable {v0 v1 : BitVector} (hlen : v1.length = v0.length) (hv : v0.length ≤ Config.outCap)
include hlen hv

/-- The vector in OUT0 reads back: OUT1 begins beyond it. -/
theorem readVec_out0_putOutPair :
    (s.putOutPair v0 v1).mem.readVec out0Base (s.putOutPair v0 v1).out0Len.toNat = v0 := by
  rw [State.putOutPair_out0Len, toNat_storedLength hv]
  simp only [Config.outCap] at hv
  calc (s.putOutPair v0 v1).mem.readVec out0Base v0.length
      = (s.mem.writeVec out0Base v0).readVec out0Base v0.length :=
        Memory.readVec_congr fun i hi => Memory.read_writeVec_outside _ _ (by simp only [out0Base, out1Base]; omega)
    _ = v0 := Memory.readVec_writeVec v0 hs (by decide) (by simp only [out0Base, windowEnd]; omega)

theorem readVec_out1_putOutPair :
    (s.putOutPair v0 v1).mem.readVec out1Base (s.putOutPair v0 v1).out1Len.toNat = v1 := by
  rw [State.putOutPair_out1Len, toNat_storedLength hv, ← hlen]
  simp only [Config.outCap] at hv
  have hwf := Memory.wf_writeVec v0 hs (base := out0Base) (by decide) (by simp only [out0Base, windowEnd]; omega)
  exact Memory.readVec_writeVec v1 hwf (by decide) (by simp only [out1Base, windowEnd]; omega)

end

section
variable {s s' : State} (hs : s.mem.wf = true) (hs' : s'.mem.wf = true)
include hs hs'

/-- One result, completed in two states, gives the same report and the same OUT0. -/
theorem SingleResult.sameResult {r : Except CommandError BitVector} (hr : SingleResult r) :
    SameResult0 (s.finishSingle r) (s'.finishSingle r) := by
  match r, hr with
  | .ok v, ⟨hlen, _⟩ =>
    exact ⟨rfl, rfl, fun _ => ⟨rfl, (readVec_putOut0 hs' hlen).trans (readVec_putOut0 hs hlen).symm⟩⟩
  | .error e, _ => exact .of_error s s' e

/-- One pair of results, completed in two states, gives the same report, the same OUT0 and the same OUT1. -/
theorem PairResult.sameResult {r : Except CommandError (BitVector × BitVector)} (hr : PairResult r) :
    SameResult0 (s.finishPair r) (s'.finishPair r) ∧ SameResult1 (s.finishPair r) (s'.finishPair r) := by
  match r, hr with
  | .ok (v0, v1), ⟨n, hn, ⟨h0, _⟩, ⟨h1, _⟩⟩ =>
    have hlen : v1.length = v0.length := h1.trans h0.symm
    have hv : v0.length ≤ Config.outCap :=
      h0.trans_le ((by decide : ∀ n ∈ [40, 64, 124, 172], n ≤ Config.outCap) n hn)
    exact
      ⟨⟨rfl, rfl, fun _ =>
          ⟨rfl, (readVec_out0_putOutPair hs' hlen hv).trans (readVec_out0_putOutPair hs hlen hv).symm⟩⟩,
        fun _ => ⟨rfl, (readVec_out1_putOutPair hs' hlen hv).trans (readVec_out1_putOutPair hs hlen hv).symm⟩⟩
  | .error e, _ => exact ⟨.of_error s s' e, fun h => absurd h e.kind.code_ne_zero⟩

end

/-- The operand of a Manchester command depends only on IN_LEN and IN[0..IN_LEN). -/
theorem inputVector_congr {s s' : State} (hlen : s'.inLen = s.inLen)
    (hin : ∀ m, m < s.inLen.toNat → s'.mem.read (inBase + m) = s.mem.read (inBase + m)) :
    s'.inputVector = s.inputVector := by
  unfold State.inputVector
  rw [hlen, Memory.readVec_congr hin]

theorem encode_or_manchester (i : Instr) :
    (i = .encodeV2 ∨ i = .encodeV2Bursts) ∨ (i = .manchesterEncode ∨ i = .manchesterDecode) := by
  cases i <;> simp

section
variable {i : Instr} {s s' t t' : State}

/-- An ENCODE command's results are a function of FIXED_HI, FIXED_LO and ROLLING. -/
theorem encode_sameResult (hi : i = .encodeV2 ∨ i = .encodeV2Bursts)
    (hop : s'.fixedHi = s.fixedHi ∧ s'.fixedLo = s.fixedLo ∧ s'.rolling = s.rolling)
    (hs : s.mem.wf = true) (hs' : s'.mem.wf = true) (h : exec i s = .next t) (h' : exec i s' = .next t') :
    SameResult0 t t' ∧ SameResult1 t t' := by
  obtain ⟨hhi, hlo, hrolling⟩ := hop
  obtain rfl | rfl := hi
  · rw [exec_encodeV2] at h h'
    cases h
    cases h'
    rw [hhi, hlo, hrolling]
    exact (encodeV2_result ..).sameResult hs hs'
  · rw [exec_encodeV2Bursts] at h h'
    cases h
    cases h'
    rw [hhi, hlo, hrolling]
    exact (encodeV2Bursts_result ..).sameResult hs hs'

/-- A Manchester command's results are a function of IN_LEN and IN[0..IN_LEN). -/
theorem manchester_sameResult (hi : i = .manchesterEncode ∨ i = .manchesterDecode)
    (hop : s'.inLen = s.inLen ∧ ∀ m, m < s.inLen.toNat → s'.mem.read (inBase + m) = s.mem.read (inBase + m))
    (hs : s.mem.wf = true) (hs' : s'.mem.wf = true) (h : exec i s = .next t) (h' : exec i s' = .next t') :
    SameResult0 t t' := by
  have hvec := inputVector_congr hop.1 hop.2
  obtain rfl | rfl := hi
  · rw [exec_manchesterEncode] at h h'
    cases h
    cases h'
    rw [hvec]
    exact (manchesterEncode_result s).sameResult hs hs'
  · rw [exec_manchesterDecode] at h h'
    cases h
    cases h'
    rw [hvec]
    exact (manchesterDecode_result s).sameResult hs hs'

end

end Sys2Proof.Machine

/-! PROOFS. What the writes of the host do. -/

namespace Sys2Proof.Machine

@[simp] theorem hostWrite_cmd (c : Byte) (s : State) : hostWrite 0x000 (.b1 c) s = commandWrite c s := rfl

@[simp] theorem hostWrite_inLen (x : BitVec 16) (s : State) :
    hostWrite 0x004 (.b2 x) s = .next { s with inLen := x } := rfl

@[simp] theorem hostWrite_fixedHi (x : BitVec 8) (s : State) :
    hostWrite 0x00C (.b1 x) s = .next { s with fixedHi := x } := rfl

@[simp] theorem hostWrite_rolling (x : BitVec 32) (s : State) :
    hostWrite 0x010 (.b4 x) s = .next { s with rolling := x } := rfl

@[simp] theorem hostWrite_fixedLo (x : BitVec 64) (s : State) :
    hostWrite 0x018 (.b8 x) s = .next { s with fixedLo := x } := rfl

theorem hostWrite_input {i : Nat} (hi : i < 256) (x : Byte) (s : State) :
    hostWrite (inBase + i) (.b1 x) s = .next { s with mem := s.mem.write (inBase + i) x } := by
  simp only [hostWrite, HostValue.size, targetAt_input hi]

/-- When the oldest host event is a write, the step is that write. -/
theorem step_write {s : State} {a : Nat} {v : HostValue} {rest : List HostEvent}
    (h : s.pending = .access (.write a v) :: rest) : step s = hostWrite a v { s with pending := rest } :=
  step_cons h

/-- The state that the host can read but not write, and CMD: the two states agree on it. -/
def SameReadOnlyState (s t : State) : Prop :=
  t.cmd = s.cmd ∧ t.errCode = s.errCode ∧ t.errPos = s.errPos ∧ t.out0Len = s.out0Len ∧ t.out1Len = s.out1Len ∧
  ∀ a, out0Base ≤ a → t.mem.read a = s.mem.read a

/-- Two states that differ only in the operand registers and the host's lists. -/
theorem SameReadOnlyState.of_mem_eq {s t : State} (hcmd : t.cmd = s.cmd) (hcode : t.errCode = s.errCode)
    (hpos : t.errPos = s.errPos) (h0 : t.out0Len = s.out0Len) (h1 : t.out1Len = s.out1Len) (hmem : t.mem = s.mem) :
    SameReadOnlyState s t :=
  ⟨hcmd, hcode, hpos, h0, h1, fun _ _ => by rw [hmem]⟩

/-- A host write elsewhere than at CMD leaves the read-only state as it was. -/
theorem hostWrite_sameReadOnlyState {a : Nat} {v : HostValue} {s t : State} (ha : a ≠ 0x000)
    (h : hostWrite a v s = .next t) : SameReadOnlyState s t := by
  obtain ⟨c, h0, -, -⟩ | ⟨x, -, -, rfl⟩ | ⟨x, -, -, rfl⟩ | ⟨x, -, -, rfl⟩ | ⟨x, -, -, rfl⟩ |
    ⟨i, x, hi, -, -, rfl⟩ := hostWrite_cases h
  · exact absurd h0 ha
  · exact .of_mem_eq rfl rfl rfl rfl rfl rfl
  · exact .of_mem_eq rfl rfl rfl rfl rfl rfl
  · exact .of_mem_eq rfl rfl rfl rfl rfl rfl
  · exact .of_mem_eq rfl rfl rfl rfl rfl rfl
  · exact ⟨rfl, rfl, rfl, rfl, rfl, fun b hb =>
      Memory.read_write_other _ (by simp only [inBase, out0Base] at *; omega) x⟩

theorem hostRead_sameReadOnlyState {a : Nat} {n : AccessSize} {s t : State} (h : hostRead a n s = .next t) :
    SameReadOnlyState s t := by
  obtain ⟨x, -, rfl⟩ := hostRead_cases h
  exact .of_mem_eq rfl rfl rfl rfl rfl rfl

end Sys2Proof.Machine

/-! PROOFS. The statements about the state, the steps and the invariant, settled. -/

namespace Sys2Proof.Proofs

open Sys2Proof.Machine

/-- Settles O45: every case of the step keeps the invariant. -/
theorem everyStepKeepsTheInvariantOfTheBlock : Obligations.EveryStepKeepsTheInvariantOfTheBlock :=
  fun _ _ hs h => step_keeps_inv hs h

/-- Settles O11: the write reads back at its own offset, and no other offset changes. -/
theorem inputWritesStoreTheElement : Obligations.InputWritesStoreTheElement := by
  intro s rest i x hwf hi hp
  have hstep := (step_write hp).trans (hostWrite_input hi x _)
  exact ⟨_, hstep, rfl, Memory.read_write_same hwf _ x, fun a ha => Memory.read_write_other _ ha x⟩

/-- Settles O17, by induction on the first list. -/
theorem canonicalMemoryIsDeterminedByItsBytes : Obligations.CanonicalMemoryIsDeterminedByItsBytes :=
  fun _ _ hm hm' h => Memory.eq_of_read_eq hm hm' h

/-- Settles O46: the frame of each of a command's three effects. -/
theorem commandsLeaveTheirOperandsAlone : Obligations.CommandsLeaveTheirOperandsAlone := by
  intro i s t h
  have heff := exec_effect h
  obtain ⟨hcmd, hinLen, hhi, hrolling, hlo, hpending, hreturned⟩ := heff.operands
  exact ⟨hcmd, hinLen, hhi, hrolling, hlo, hpending, hreturned, fun a ha => heff.read_below_out0 ha⟩

/-- Settles O49: the report of each effect, and no effect depends on the old report. -/
theorem everyCommandOverwritesTheReport : Obligations.EveryCommandOverwritesTheReport := by
  intro s t c rest x y hp h
  have hwrite : commandWrite c { s with pending := rest } = .next t := (step_write hp).symm.trans h
  obtain ⟨⟨hle, -, -⟩, hpos, hzero⟩ := (commandWrite_effect hwrite).report
  refine ⟨fun h0 => hzero (by simp [h0]) (by simp [h0]), hle, hpos, t, ?_, rfl⟩
  calc step { s with errCode := x, errPos := y }
      = commandWrite c { s with errCode := x, errPos := y, pending := rest } :=
        step_write (s := { s with errCode := x, errPos := y }) hp
    _ = commandWrite c { s with pending := rest } := commandWrite_ignores_report c { s with pending := rest } x y
    _ = .next t := hwrite

/-- Settles O50: a read, or a write elsewhere than at CMD, is all that is left. -/
theorem onlyCommandsWriteTheReadOnlyState : Obligations.OnlyCommandsWriteTheReadOnlyState := by
  intro s t e rest hp hreset hcmd h
  rw [step_cons hp] at h
  match e, h with
  | .reset, _ => exact absurd rfl hreset
  | .access (.read a n), h => exact hostRead_sameReadOnlyState (s := { s with pending := rest }) h
  | .access (.write a v), h =>
    have ha : a ≠ 0x000 := fun h0 => hcmd v (by rw [h0])
    exact hostWrite_sameReadOnlyState (s := { s with pending := rest }) ha h

/-- Settles O51: equal operands give one result, and completing one result in two states gives the same outputs. -/
theorem resultsDependOnlyOnTheOperands : Obligations.ResultsDependOnlyOnTheOperands := by
  intro i s s' t t' hencode hmanchester hs hs' h h'
  obtain hi | hi := encode_or_manchester i
  · obtain ⟨⟨hcode, hpos, hout0⟩, hout1⟩ := encode_sameResult hi (hencode hi) hs hs' h h'
    exact ⟨hcode, hpos, fun hok => ⟨(hout0 hok).1, (hout0 hok).2, fun _ => hout1 hok⟩⟩
  · obtain ⟨hcode, hpos, hout0⟩ := manchester_sameResult hi (hmanchester hi) hs hs' h h'
    have hno : ¬ (i = .encodeV2 ∨ i = .encodeV2Bursts) := by obtain rfl | rfl := hi <;> simp
    exact ⟨hcode, hpos, fun hok => ⟨(hout0 hok).1, (hout0 hok).2, fun hi => absurd hi hno⟩⟩

/-- Settles O4: the CMD write's case of the step. -/
theorem stepRunsTheDecodedCommand : Obligations.StepRunsTheDecodedCommand := by
  intro s c i rest hp hdec
  rw [step_write hp, hostWrite_cmd, commandWrite, hdec]

/-- Settles O6, by the field lemmas of reset. -/
theorem resetSetsEveryRegisterAndElementToZero : Obligations.ResetSetsEveryRegisterAndElementToZero := by
  intro s t ht
  simp only [List.mem_cons, List.not_mem_nil, or_false] at ht
  obtain rfl | rfl := ht <;> exact ⟨rfl, rfl, rfl, rfl, rfl, rfl, rfl, rfl, rfl, Memory.read_nil⟩

/-- Settles O8: the idle case of the step. -/
theorem blockIsIdleWithoutHostEvents : Obligations.BlockIsIdleWithoutHostEvents :=
  fun _ h => step_nil h

/-- Settles O10: one case of the host write per register. -/
theorem operandWritesStoreTheValue : Obligations.OperandWritesStoreTheValue :=
  fun _ _ =>
    ⟨fun x hp => (step_write hp).trans (hostWrite_inLen x _), fun x hp => (step_write hp).trans (hostWrite_fixedHi x _),
      fun x hp => (step_write hp).trans (hostWrite_rolling x _),
      fun x hp => (step_write hp).trans (hostWrite_fixedLo x _)⟩

/-- Settles O44: the reset state is empty and zero. -/
theorem resetStateIsSafe : Obligations.ResetStateIsSafe :=
  State.Inv.of_reset rfl rfl rfl rfl rfl

end Sys2Proof.Proofs

/-! PROOFS. The widths of an access and of a value. -/

namespace Sys2Proof

theorem AccessSize.bytes_pos (n : AccessSize) : 0 < n.bytes := by cases n <;> decide

theorem AccessSize.eq_of_bytes_eq {n n' : AccessSize} (h : n.bytes = n'.bytes) : n = n' := by
  cases n <;> cases n' <;> simp [AccessSize.bytes] at h ⊢

theorem AccessSize.bytes_eq_one_iff (n : AccessSize) : n.bytes = 1 ↔ n = .one := by cases n <;> decide

/-- A value has no bits beyond its bytes. -/
theorem HostValue.toNat_lt (v : HostValue) : v.toNat < 2 ^ (8 * v.size.bytes) := by
  cases v <;> exact BitVec.isLt _

end Sys2Proof

/-! PROOFS. The host window: which registers and elements an access addresses, and which offsets are mapped. -/

namespace Sys2Proof.Machine

@[simp] theorem Reg.mem_all (r : Reg) : r ∈ Reg.all := by cases r <;> decide

theorem Reg.exists_iff {p : Reg → Prop} : (∃ r, p r) ↔ ∃ r ∈ Reg.all, p r := by simp

/-- No two registers share a byte (R20). -/
theorem Reg.eq_of_holds {r r' : Reg} {a : Nat} (h : r.holds a = true) (h' : r'.holds a = true) : r = r' := by
  rw [Reg.holds_iff] at h h'
  have hapart : ∀ r ∈ Reg.all, ∀ r' ∈ Reg.all,
      r = r' ∨ r.offset + r.size.bytes ≤ r'.offset ∨ r'.offset + r'.size.bytes ≤ r.offset := by decide
  obtain heq | hle | hle := hapart r r.mem_all r' r'.mem_all
  · exact heq
  · omega
  · omega

/-- So the window's search finds the one register that holds the offset. -/
theorem Reg.find?_holds_eq_some_iff {r : Reg} {a : Nat} :
    Reg.all.find? (·.holds a) = some r ↔ r.holds a = true := by
  constructor
  · exact List.find?_some (p := fun r : Reg => r.holds a)
  · intro h
    cases hfind : Reg.all.find? (·.holds a) with
    | none => exact absurd h (List.find?_eq_none.mp hfind r r.mem_all)
    | some r' => rw [Reg.eq_of_holds h (List.find?_some (p := fun r : Reg => r.holds a) hfind)]

/-- Every register ends below the buffers. -/
theorem Reg.end_lt (r : Reg) : r.offset + r.size.bytes < inBase := by cases r <;> decide

/-- A byte is mapped exactly when a register or a buffer holds it. -/
theorem isMapped_iff_holds (a : Nat) :
    isMapped a = true ↔ (∃ r : Reg, r.holds a = true) ∨ inBase ≤ a ∧ a < windowEnd := by
  simp [isMapped]

/-- The mapped offsets as numbers (R20, R50). -/
theorem isMapped_iff (a : Nat) :
    isMapped a = true ↔
      a < 0x00A ∨ a = 0x00C ∨ (0x010 ≤ a ∧ a < 0x014) ∨ (0x018 ≤ a ∧ a < 0x020) ∨ (0x100 ≤ a ∧ a < 0x600) := by
  simp only [isMapped_iff_holds, Reg.holds_iff, Reg.exists_iff, Reg.all, List.exists_mem_cons_iff, List.not_mem_nil,
    Reg.offset, Reg.size, AccessSize.bytes, inBase, windowEnd, false_and, exists_false, or_false]
  omega

/-- The gaps of the window, and what lies beyond it (R50). -/
theorem isMapped_eq_false_iff (a : Nat) :
    isMapped a = false ↔
      (0x00A ≤ a ∧ a ≤ 0x00B) ∨ (0x00D ≤ a ∧ a ≤ 0x00F) ∨ (0x014 ≤ a ∧ a ≤ 0x017) ∨ (0x020 ≤ a ∧ a ≤ 0x0FF) ∨
        0x600 ≤ a := by
  rw [← Bool.not_eq_true, isMapped_iff]
  omega

/-- The window names a byte exactly at the mapped offsets. -/
theorem windowByte_eq_none_iff (s : State) (a : Nat) : s.windowByte a = none ↔ isMapped a = false := by
  rw [← Bool.not_eq_true, isMapped_iff_holds, State.windowByte]
  cases hfind : Reg.all.find? (·.holds a) with
  | some r =>
    have hholds : ∃ r : Reg, r.holds a = true := ⟨r, Reg.find?_holds_eq_some_iff.mp hfind⟩
    simp [hholds]
  | none =>
    have hno : ¬ ∃ r : Reg, r.holds a = true := fun ⟨r, hr⟩ => List.find?_eq_none.mp hfind r r.mem_all hr
    simp [hno]

/-- Inside a register the window names the bytes of its value (R52). -/
theorem windowByte_reg (s : State) (r : Reg) {k : Nat} (hk : k < r.size.bytes) :
    s.windowByte (r.offset + k) = some (valueByte (s.readReg r) k) := by
  have hholds : r.holds (r.offset + k) = true := (r.holds_iff _).mpr (by omega)
  simp [State.windowByte, Reg.find?_holds_eq_some_iff.mpr hholds]

/-- Bit j of byte k is bit 8k + j of the value (R52). -/
theorem getLsbD_valueByte (v : HostValue) (k : Nat) {j : Nat} (hj : j < 8) :
    (valueByte v k).getLsbD j = v.toNat.testBit (8 * k + j) := by
  rw [valueByte, BitVec.getLsbD_ofNat, Nat.testBit_div_two_pow, Nat.add_comm j]
  simp [hj]

@[simp] theorem size_readReg (s : State) (r : Reg) : (s.readReg r).size = r.size := by cases r <;> rfl

end Sys2Proof.Machine

/-! PROOFS. What an access addresses, and which accesses R51 admits. -/

namespace Sys2Proof.Machine

/-- The RW registers (R20). -/
def Reg.writable : Reg → Bool
  | .cmd | .inLen | .fixedHi | .rolling | .fixedLo => true
  | .errCode | .errPos | .out0Len | .out1Len => false

/-- A host write has an effect on the RW registers and on IN (R51). -/
def Target.writable : Target → Bool
  | .reg r => r.writable
  | .input _ => true
  | .output0 _ => false
  | .output1 _ => false

/-- An offset inside the buffers is that of an element of IN, OUT0 or OUT1 (R53). -/
theorem element_cases {a : Nat} (h1 : inBase ≤ a) (h2 : a < windowEnd) :
    (∃ i, i < 256 ∧ a = inBase + i) ∨ (∃ i, i < 512 ∧ a = out0Base + i) ∨ (∃ i, i < 512 ∧ a = out1Base + i) := by
  simp only [inBase, out0Base, out1Base, windowEnd] at *
  obtain h | h | h : a < 0x200 ∨ (0x200 ≤ a ∧ a < 0x400) ∨ 0x400 ≤ a := by omega
  · exact .inl ⟨a - 0x100, by omega, by omega⟩
  · exact .inr (.inl ⟨a - 0x200, by omega, by omega⟩)
  · exact .inr (.inr ⟨a - 0x400, by omega, by omega⟩)

/-- A read of one byte inside the buffers returns the byte there, whichever buffer it is in (R53). -/
theorem targetAt_byte {a : Nat} (h1 : inBase ≤ a) (h2 : a < windowEnd) :
    ∃ t, targetAt a .one = some t ∧ (t.writable = true ↔ a < out0Base) ∧
      ∀ s : State, s.readTarget t = .b1 (s.mem.read a) := by
  obtain ⟨i, hi, rfl⟩ | ⟨i, hi, rfl⟩ | ⟨i, hi, rfl⟩ := element_cases h1 h2
  · exact ⟨_, targetAt_input hi, by simp only [Target.writable, inBase, out0Base, true_iff]; omega, fun _ => rfl⟩
  · exact ⟨_, targetAt_output0 hi, by simp [Target.writable], fun _ => rfl⟩
  · exact ⟨_, targetAt_output1 hi, by simp [Target.writable, Nat.le_add_right_of_le, out0Base, out1Base], fun _ => rfl⟩

/-- R51's two forms: an access addresses something exactly when it covers one register, or one buffer element. -/
theorem exists_targetAt_iff (a : Nat) (n : AccessSize) :
    (∃ t, targetAt a n = some t) ↔
      (∃ r : Reg, a = r.offset ∧ n = r.size) ∨ n = .one ∧ inBase ≤ a ∧ a < windowEnd := by
  constructor
  · rintro ⟨t, ht⟩
    obtain ⟨r, -, hr⟩ | ⟨rfl, ⟨i, hi, -, rfl⟩ | ⟨i, hi, -, rfl⟩ | ⟨i, hi, -, rfl⟩⟩ := targetAt_cases ht
    · exact .inl ⟨r, hr⟩
    all_goals exact .inr ⟨rfl, by simp only [inBase, out0Base, out1Base, windowEnd]; omega⟩
  · rintro (⟨r, rfl, rfl⟩ | ⟨rfl, h1, h2⟩)
    · exact ⟨_, targetAt_reg r⟩
    · obtain ⟨t, ht, -⟩ := targetAt_byte h1 h2
      exact ⟨t, ht⟩

/-- The same forms, with only the targets that are writable or only those that are not (R20, R51). -/
theorem exists_targetAt_writable_iff (a : Nat) (n : AccessSize) (w : Bool) :
    (∃ t, targetAt a n = some t ∧ t.writable = w) ↔
      (∃ r : Reg, r.writable = w ∧ a = r.offset ∧ n = r.size) ∨
        n = .one ∧ inBase ≤ a ∧ a < windowEnd ∧ (w = true ↔ a < out0Base) := by
  constructor
  · rintro ⟨t, ht, hw⟩
    obtain ⟨r, rfl, rfl⟩ | ⟨rfl, h1, h2⟩ := (exists_targetAt_iff a n).mp ⟨t, ht⟩
    · cases (targetAt_reg r).symm.trans ht
      exact .inl ⟨r, hw, rfl, rfl⟩
    · obtain ⟨t', ht', hw', -⟩ := targetAt_byte h1 h2
      cases ht'.symm.trans ht
      exact .inr ⟨rfl, h1, h2, hw ▸ hw'⟩
  · rintro (⟨r, hw, rfl, rfl⟩ | ⟨rfl, h1, h2, hw⟩)
    · exact ⟨_, targetAt_reg r, hw⟩
    · obtain ⟨t, ht, hw', -⟩ := targetAt_byte h1 h2
      exact ⟨t, ht, Bool.eq_iff_iff.mpr (hw'.trans hw.symm)⟩

/-- The register list of WellFormed.lean is the machine's register map. -/
theorem isWholeRegister_iff (a : Nat) (n : AccessSize) :
    isWholeRegister a n.bytes = true ↔ ∃ r : Reg, a = r.offset ∧ n = r.size := by
  cases n <;> simp [isWholeRegister, Reg.exists_iff, Reg.all, Reg.offset, Reg.size, AccessSize.bytes, or_assoc]

theorem isWholeRwRegister_iff (a : Nat) (n : AccessSize) :
    isWholeRwRegister a n.bytes = true ↔ ∃ r : Reg, r.writable = true ∧ a = r.offset ∧ n = r.size := by
  cases n <;>
    simp [isWholeRwRegister, Reg.exists_iff, Reg.all, Reg.writable, Reg.offset, Reg.size, AccessSize.bytes]

/-- A read is admitted exactly when it addresses something (R51). -/
theorem wellFormed_read_iff (a : Nat) (n : AccessSize) :
    (HostAccess.read a n).wellFormed = true ↔ ∃ t, targetAt a n = some t := by
  simp [HostAccess.wellFormed, exists_targetAt_iff, isWholeRegister_iff, n.bytes_eq_one_iff, and_assoc]

/-- A write is admitted exactly when it addresses something writable (R51). -/
theorem wellFormed_write_iff (a : Nat) (v : HostValue) :
    (HostAccess.write a v).wellFormed = true ↔ ∃ t, targetAt a v.size = some t ∧ t.writable = true := by
  rw [exists_targetAt_writable_iff]
  have hin : 0x100 ≤ a ∧ a < 0x200 ↔ inBase ≤ a ∧ a < windowEnd ∧ (true = true ↔ a < out0Base) := by
    simp only [inBase, out0Base, windowEnd, true_iff]; omega
  simp [HostAccess.wellFormed, isWholeRwRegister_iff, v.size.bytes_eq_one_iff, and_assoc, hin]

end Sys2Proof.Machine

/-! PROOFS. What the host's accesses answer: a next state when admitted, a refusal otherwise. -/

namespace Sys2Proof.Machine

/-- A command always completes: no command stops the block (R171). -/
theorem exec_next (i : Instr) (s : State) : ∃ t, exec i s = .next t := by cases i <;> exact ⟨_, rfl⟩

theorem commandWrite_next (c : Byte) (s : State) : ∃ t, commandWrite c s = .next t := by
  obtain ⟨i, -, hrun⟩ | ⟨-, hrun⟩ := commandWrite_cases c s
  · exact hrun ▸ exec_next i _
  · exact ⟨_, hrun⟩

theorem hostRead_of_target {a : Nat} {n : AccessSize} {t : Target} (h : targetAt a n = some t) (s : State) :
    hostRead a n s = .next { s with returned := s.returned ++ [s.readTarget t] } := by
  simp only [hostRead, h]

theorem hostRead_of_none {a : Nat} {n : AccessSize} (h : targetAt a n = none) (s : State) :
    hostRead a n s = .refused (refusalFor a n.bytes) := by
  simp only [hostRead, h]

theorem hostWrite_of_none {a : Nat} {v : HostValue} (h : targetAt a v.size = none) (s : State) :
    hostWrite a v s = .refused (refusalFor a v.size.bytes) := by
  simp only [hostWrite, h]

theorem hostWrite_of_readOnly {a : Nat} {v : HostValue} {t : Target} (h : targetAt a v.size = some t)
    (hw : t.writable = false) (s : State) : hostWrite a v s = .refused (.readOnlyWrite a) := by
  simp only [hostWrite, h]
  split <;> simp_all [Target.writable, Reg.writable]

/-- A write of a writable target answers a next state: the target's width is the value's. -/
theorem hostWrite_of_writable {a : Nat} {v : HostValue} (h : ∃ t, targetAt a v.size = some t ∧ t.writable = true)
    (s : State) : ∃ s', hostWrite a v s = .next s' := by
  obtain ⟨r, hw, rfl, hn⟩ | ⟨hn, h1, h2, hw⟩ := (exists_targetAt_writable_iff a v.size true).mp h
  · match r, v, hn with
    | .cmd, .b1 c, _ => exact commandWrite_next c s
    | .inLen, .b2 x, _ => exact ⟨_, hostWrite_inLen x s⟩
    | .fixedHi, .b1 x, _ => exact ⟨_, hostWrite_fixedHi x s⟩
    | .rolling, .b4 x, _ => exact ⟨_, hostWrite_rolling x s⟩
    | .fixedLo, .b8 x, _ => exact ⟨_, hostWrite_fixedLo x s⟩
  · obtain ⟨i, rfl⟩ := Nat.exists_eq_add_of_le h1
    have hi : i < 256 := by have := hw.mp rfl; simp only [inBase, out0Base] at this; omega
    match v, hn with
    | .b1 x, _ => exact ⟨_, hostWrite_input hi x s⟩

end Sys2Proof.Machine

/-! PROOFS. The accesses that R51 does not admit, and their names (log 7). -/

namespace Sys2Proof.Machine

section
variable {a n : Nat}

theorem refusalFor_eq_outsideWindow_iff : refusalFor a n = .outsideWindow a ↔ windowEnd < a + n := by
  unfold refusalFor; split_ifs <;> simp_all

theorem refusalFor_eq_unmappedByte_iff :
    refusalFor a n = .unmappedByte a ↔ a + n ≤ windowEnd ∧ ∃ k, k < n ∧ isMapped (a + k) = false := by
  unfold refusalFor; split_ifs <;> simp_all

theorem refusalFor_eq_partialRegister_iff :
    refusalFor a n = .partialRegister a ↔
      a + n ≤ windowEnd ∧ (∀ k, k < n → isMapped (a + k) = true) ∧
        ∃ r : Reg, r.holds a = true ∧ r.holds (a + n - 1) = true := by
  unfold refusalFor; split_ifs <;> simp_all

theorem refusalFor_eq_spansTargets_iff :
    refusalFor a n = .spansTargets a ↔
      a + n ≤ windowEnd ∧ (∀ k, k < n → isMapped (a + k) = true) ∧
        ¬ ∃ r : Reg, r.holds a = true ∧ r.holds (a + n - 1) = true := by
  unfold refusalFor; split_ifs <;> simp_all

theorem refusalFor_mem :
    refusalFor a n ∈ [Refusal.outsideWindow a, .unmappedByte a, .partialRegister a, .spansTargets a] := by
  unfold refusalFor; split_ifs <;> simp

end

/-- The register covers the n bytes from a on. -/
def Reg.Covers (r : Reg) (a n : Nat) : Prop := r.offset ≤ a ∧ a + n ≤ r.offset + r.size.bytes

theorem Reg.covers_iff_holds (r : Reg) {a n : Nat} (hn : 0 < n) :
    r.Covers a n ↔ r.holds a = true ∧ r.holds (a + n - 1) = true := by
  rw [Reg.Covers, Reg.holds_iff, Reg.holds_iff]
  omega

theorem isMapped_of_covers {r : Reg} {a n : Nat} (h : r.Covers a n) :
    a + n ≤ windowEnd ∧ ∀ k, k < n → isMapped (a + k) = true := by
  obtain ⟨h1, h2⟩ := h
  have hend := r.end_lt
  refine ⟨by simp only [inBase, windowEnd] at *; omega, fun k hk => ?_⟩
  exact (isMapped_iff_holds _).mpr (.inl ⟨r, (r.holds_iff _).mpr (by omega)⟩)

/-- The mapped ranges of the window (R50): five, with a gap after each. -/
theorem allMapped_iff (a : Nat) {n : Nat} (hn : 0 < n) :
    (∀ k, k < n → isMapped (a + k) = true) ↔
      a + n ≤ 0x00A ∨ (0x00C ≤ a ∧ a + n ≤ 0x00D) ∨ (0x010 ≤ a ∧ a + n ≤ 0x014) ∨ (0x018 ≤ a ∧ a + n ≤ 0x020) ∨
        (0x100 ≤ a ∧ a + n ≤ 0x600) := by
  simp only [isMapped_iff]
  constructor
  · intro h
    have hfirst := h 0 hn
    have hA := h (0x00A - a)
    have hD := h (0x00D - a)
    have h14 := h (0x014 - a)
    have h20 := h (0x020 - a)
    have h600 := h (0x600 - a)
    omega
  · intro h k hk
    omega

section
variable (a : Nat) (n : AccessSize)

theorem targetAt_eq_none_iff :
    targetAt a n = none ↔
      ¬ ((∃ r : Reg, a = r.offset ∧ n = r.size) ∨ n = .one ∧ inBase ≤ a ∧ a < windowEnd) := by
  rw [← exists_targetAt_iff]
  cases targetAt a n <;> simp

/-- What an access addresses lies in the window, and all its bytes are mapped. -/
theorem targetAt_eq_none_of_not_mapped
    (h : ¬ (a + n.bytes ≤ windowEnd ∧ ∀ k, k < n.bytes → isMapped (a + k) = true)) : targetAt a n = none := by
  rw [targetAt_eq_none_iff]
  rintro (⟨r, rfl, rfl⟩ | ⟨rfl, h1, h2⟩)
  · exact h (isMapped_of_covers ⟨le_rfl, le_rfl⟩)
  · refine h ⟨h2, fun k hk => (isMapped_iff_holds _).mpr (.inr ?_)⟩
    simp only [AccessSize.bytes] at hk
    omega

/-- An access that addresses nothing covers no whole register. -/
theorem lt_size_of_covers {r : Reg} (hr : r.Covers a n.bytes) (hnone : targetAt a n = none) :
    n.bytes < r.size.bytes := by
  obtain ⟨h1, h2⟩ := hr
  refine Nat.lt_of_le_of_ne (by omega) fun heq => ?_
  have hwhole : a = r.offset ∧ n = r.size := ⟨by omega, AccessSize.eq_of_bytes_eq heq⟩
  exact (targetAt_eq_none_iff a n).mp hnone (.inl ⟨r, hwhole⟩)

/-- A proper part of one register is no target: no other register holds its first byte. -/
theorem targetAt_eq_none_of_covers {r : Reg} (hr : r.Covers a n.bytes) (hlt : n.bytes < r.size.bytes) :
    targetAt a n = none := by
  rw [targetAt_eq_none_iff]
  rintro (⟨r', rfl, rfl⟩ | ⟨rfl, h1, -⟩)
  · have hr' : r'.Covers r'.offset r'.size.bytes := ⟨le_rfl, le_rfl⟩
    have hpos := r'.size.bytes_pos
    obtain rfl := Reg.eq_of_holds ((r.covers_iff_holds hpos).mp hr).1 ((r'.covers_iff_holds hpos).mp hr').1
    exact lt_irrefl _ hlt
  · have hend := r.end_lt
    obtain ⟨-, h2⟩ := hr
    omega

/-- An access that addresses nothing is refused as outsideWindow exactly when it reaches beyond 0x5FF. -/
theorem outsideWindow_iff :
    refusalFor a n.bytes = .outsideWindow a ∧ targetAt a n = none ↔ windowEnd < a + n.bytes := by
  rw [refusalFor_eq_outsideWindow_iff, and_iff_left_iff_imp]
  exact fun h => targetAt_eq_none_of_not_mapped a n (by omega)

/-- As unmappedByte exactly when it stays in the window and covers an unmapped byte. -/
theorem unmappedByte_iff :
    refusalFor a n.bytes = .unmappedByte a ∧ targetAt a n = none ↔
      a + n.bytes ≤ windowEnd ∧ ∃ k, k < n.bytes ∧ isMapped (a + k) = false := by
  rw [refusalFor_eq_unmappedByte_iff, and_iff_left_iff_imp]
  rintro ⟨-, k, hk, hgap⟩
  exact targetAt_eq_none_of_not_mapped a n fun ⟨_, hmapped⟩ => by simp [hmapped k hk] at hgap

/-- As partialRegister exactly when it covers a proper part of one register. -/
theorem partialRegister_iff :
    refusalFor a n.bytes = .partialRegister a ∧ targetAt a n = none ↔
      ∃ r : Reg, r.Covers a n.bytes ∧ n.bytes < r.size.bytes := by
  simp only [refusalFor_eq_partialRegister_iff, ← Reg.covers_iff_holds _ n.bytes_pos]
  constructor
  · rintro ⟨⟨-, -, r, hr⟩, hnone⟩
    exact ⟨r, hr, lt_size_of_covers a n hr hnone⟩
  · rintro ⟨r, hr, hlt⟩
    obtain ⟨hend, hmapped⟩ := isMapped_of_covers hr
    exact ⟨⟨hend, hmapped, r, hr⟩, targetAt_eq_none_of_covers a n hr hlt⟩

/-- As spansTargets exactly when it covers bytes of two registers, all of them below the first gap, or of two buffer
elements. -/
theorem spansTargets_iff :
    refusalFor a n.bytes = .spansTargets a ∧ targetAt a n = none ↔
      (a + n.bytes ≤ 0x00A ∧ ∀ r : Reg, ¬ r.Covers a n.bytes) ∨
        (0x100 ≤ a ∧ a + n.bytes ≤ 0x600 ∧ 1 < n.bytes) := by
  have hpos := n.bytes_pos
  simp only [refusalFor_eq_spansTargets_iff, ← Reg.covers_iff_holds _ hpos, allMapped_iff a hpos, not_exists,
    targetAt_eq_none_iff, ← n.bytes_eq_one_iff, inBase, windowEnd]
  constructor
  · rintro ⟨⟨-, h | h | h | h | ⟨h1, h2⟩, hno⟩, hnone⟩
    · exact .inl ⟨h, hno⟩
    · exact absurd h (hno .fixedHi)
    · exact absurd h (hno .rolling)
    · exact absurd h (hno .fixedLo)
    · have hone : n.bytes ≠ 1 := fun hone => hnone (.inr ⟨hone, by omega⟩)
      exact .inr ⟨h1, h2, by omega⟩
  · rintro (⟨h, hno⟩ | ⟨h1, h2, hone⟩)
    · refine ⟨⟨by omega, .inl h, hno⟩, ?_⟩
      rintro (⟨r, rfl, rfl⟩ | ⟨-, h1, -⟩)
      · exact hno r ⟨le_rfl, le_rfl⟩
      · omega
    · have hbelow (r : Reg) : r.offset + r.size.bytes < 0x100 := r.end_lt
      refine ⟨⟨h2, by omega, fun r hr => ?_⟩, ?_⟩
      · obtain ⟨-, hr2⟩ := hr
        have := hbelow r
        omega
      · rintro (⟨r, rfl, rfl⟩ | ⟨h, -⟩)
        · have := hbelow r
          omega
        · omega

end

/-- The read-only targets as numbers: the RO registers and the output elements (R20, R51). -/
theorem exists_readOnly_target_iff (a : Nat) (n : AccessSize) :
    (∃ t, targetAt a n = some t ∧ t.writable = false) ↔
      (a, n) ∈ [(0x001, AccessSize.one), (0x002, .two), (0x006, .two), (0x008, .two)] ∨
        n = .one ∧ 0x200 ≤ a ∧ a < 0x600 := by
  rw [exists_targetAt_writable_iff]
  refine or_congr ?_ (and_congr_right fun _ => ?_)
  · simp [Reg.exists_iff, Reg.all, Reg.writable, Reg.offset, Reg.size]
  · simp only [inBase, out0Base, windowEnd, Bool.false_eq_true, false_iff]
    omega

/-- The proper parts of registers, with the registers of more than one byte as numbers (R20). -/
theorem Reg.exists_part_iff (a : Nat) {n : Nat} (hn : 0 < n) :
    (∃ r : Reg, r.Covers a n ∧ n < r.size.bytes) ↔
      ∃ r ∈ [(0x002, 2), (0x004, 2), (0x006, 2), (0x008, 2), (0x010, 4), (0x018, 8)],
        r.1 ≤ a ∧ a + n ≤ r.1 + r.2 ∧ n < r.2 := by
  change _ ↔ ∃ p ∈ (Reg.all.filter fun r => 1 < r.size.bytes).map fun r => (r.offset, r.size.bytes),
    p.1 ≤ a ∧ a + n ≤ p.1 + p.2 ∧ n < p.2
  constructor
  · rintro ⟨r, ⟨h1, h2⟩, hlt⟩
    have hwide : 1 < r.size.bytes := by omega
    exact ⟨_, List.mem_map_of_mem (List.mem_filter.mpr ⟨r.mem_all, decide_eq_true hwide⟩), h1, h2, hlt⟩
  · rintro ⟨p, hp, h1, h2, hlt⟩
    obtain ⟨r, -, rfl⟩ := List.mem_map.mp hp
    exact ⟨r, ⟨h1, h2⟩, hlt⟩

/-- Below the first gap only the first six registers can cover an access. -/
theorem Reg.forall_not_covers_iff {a n : Nat} (h : a + n ≤ 0x00A) :
    (∀ r : Reg, ¬ r.Covers a n) ↔
      ∀ r ∈ [(0x000, 1), (0x001, 1), (0x002, 2), (0x004, 2), (0x006, 2), (0x008, 2)],
        ¬ (r.1 ≤ a ∧ a + n ≤ r.1 + r.2) := by
  change _ ↔ ∀ p ∈ (Reg.all.take 6).map fun r => (r.offset, r.size.bytes), ¬ (p.1 ≤ a ∧ a + n ≤ p.1 + p.2)
  rw [List.forall_mem_map]
  refine ⟨fun hno r _ => hno r, fun hno r hr => ?_⟩
  have hsplit : ∀ r ∈ Reg.all, r ∈ Reg.all.take 6 ∨ 0x00C ≤ r.offset := by decide
  obtain hmem | hge := hsplit r r.mem_all
  · exact hno r hmem hr
  · obtain ⟨hfirst, -⟩ := hr
    omega

end Sys2Proof.Machine

/-! PROOFS. Which steps are refused, and which take a next state. -/

namespace Sys2Proof.Machine

theorem hostRead_refused_iff {a : Nat} {n : AccessSize} {s : State} {q : Refusal} :
    hostRead a n s = .refused q ↔ refusalFor a n.bytes = q ∧ targetAt a n = none := by
  cases h : targetAt a n with
  | some t => simp [hostRead_of_target h]
  | none => simp [hostRead_of_none h]

/-- A write is refused when its target is read-only, or when it has no target. -/
theorem hostWrite_refused_iff {a : Nat} {v : HostValue} {s : State} {q : Refusal} :
    hostWrite a v s = .refused q ↔
      (Refusal.readOnlyWrite a = q ∧ ∃ t, targetAt a v.size = some t ∧ t.writable = false) ∨
        (refusalFor a v.size.bytes = q ∧ targetAt a v.size = none) := by
  cases h : targetAt a v.size with
  | none => simp [hostWrite_of_none h]
  | some t =>
    cases hw : t.writable with
    | false => simp [hostWrite_of_readOnly h hw, hw]
    | true =>
      obtain ⟨s', hs'⟩ := hostWrite_of_writable ⟨t, h, hw⟩ s
      simp [hs', hw]

/-- Every refusal of an access: a write of a read-only target, or an access that addresses nothing. -/
theorem step_access_refused_iff {s : State} {rest : List HostEvent} {acc : HostAccess} {a : Nat} {n : AccessSize}
    (hp : s.pending = .access acc :: rest) (hacc : acc = .read a n ∨ ∃ v, acc = .write a v ∧ v.size = n)
    (q : Refusal) :
    step s = .refused q ↔
      (Refusal.readOnlyWrite a = q ∧ (∃ v, acc = .write a v) ∧ ∃ t, targetAt a n = some t ∧ t.writable = false) ∨
        (refusalFor a n.bytes = q ∧ targetAt a n = none) := by
  rw [step_cons hp]
  obtain rfl | ⟨v, rfl, rfl⟩ := hacc
  · simp [hostEvent, hostRead_refused_iff]
  · simp [hostEvent, hostWrite_refused_iff]

/-- No host event, and no command that it starts, changes what is still pending. -/
theorem hostEvent_pending {e : HostEvent} {s t : State} (h : hostEvent e s = .next t) : t.pending = s.pending := by
  match e, h with
  | .reset, h => cases h; rfl
  | .access (.read a n), h =>
    obtain ⟨x, -, rfl⟩ := hostRead_cases h
    rfl
  | .access (.write a v), h =>
    obtain ⟨c, -, -, hrun⟩ | ⟨x, -, -, rfl⟩ | ⟨x, -, -, rfl⟩ | ⟨x, -, -, rfl⟩ | ⟨x, -, -, rfl⟩ |
      ⟨i, x, -, -, -, rfl⟩ := hostWrite_cases h
    · obtain ⟨-, -, -, -, -, hpending, -⟩ := (commandWrite_effect hrun).operands
      exact hpending
    all_goals rfl

/-- An admitted event runs. -/
theorem hostEvent_next {e : HostEvent} (h : e.wellFormed = true) (s : State) : ∃ t, hostEvent e s = .next t := by
  match e, h with
  | .reset, _ => exact ⟨_, rfl⟩
  | .access (.read a n), h =>
    obtain ⟨t, ht⟩ := (wellFormed_read_iff a n).mp h
    exact ⟨_, hostRead_of_target ht s⟩
  | .access (.write a v), h => exact hostWrite_of_writable ((wellFormed_write_iff a v).mp h) s

/-- An event that is not admitted is refused: it has no target, or it writes one that is read-only. -/
theorem hostEvent_refused {e : HostEvent} (h : e.wellFormed = false) (s : State) :
    ∃ r, hostEvent e s = .refused r := by
  rw [← Bool.not_eq_true] at h
  match e, h with
  | .reset, h => exact absurd rfl h
  | .access (.read a n), h =>
    cases ht : targetAt a n with
    | none => exact ⟨_, hostRead_of_none ht s⟩
    | some t => exact absurd ((wellFormed_read_iff a n).mpr ⟨t, ht⟩) h
  | .access (.write a v), h =>
    cases ht : targetAt a v.size with
    | none => exact ⟨_, hostWrite_of_none ht s⟩
    | some t =>
      have hw : t.writable = false := by
        rw [← Bool.not_eq_true]
        exact fun hw => h ((wellFormed_write_iff a v).mpr ⟨t, ht, hw⟩)
      exact ⟨_, hostWrite_of_readOnly ht hw s⟩

end Sys2Proof.Machine

/-! PROOFS. A command performed a second time. -/

namespace Sys2Proof.Machine

/-- Writing what is already there changes nothing. -/
theorem Memory.writeVec_eq_self (v : BitVector) {m : Memory} (hm : m.wf = true) {base : Nat} (h1 : inBase ≤ base)
    (h2 : base + v.length ≤ windowEnd) (h : m.readVec base v.length = v) : m.writeVec base v = m := by
  refine Memory.eq_of_read_eq (Memory.wf_writeVec v hm h1 h2) hm fun a => ?_
  by_cases hout : a < base ∨ base + v.length ≤ a
  · exact Memory.read_writeVec_outside v m hout
  · obtain ⟨i, rfl⟩ := Nat.exists_eq_add_of_le (show base ≤ a by omega)
    have hi : i < v.length := by omega
    rw [Memory.read_writeVec_inside v hm h1 h2 hi]
    simpa [Memory.readVec, hi] using (congrArg (·[i]?) h).symm

section
variable {s : State} (hs : s.mem.wf = true)
include hs

/-- Completing a command with one result a second time changes nothing. -/
theorem SingleResult.finish_again {r : Except CommandError BitVector} (hr : SingleResult r) :
    (s.finishSingle r).finishSingle r = s.finishSingle r := by
  match r, hr with
  | .error _, _ => rfl
  | .ok v, ⟨hlen, _⟩ =>
    have hread := readVec_putOut0 hs hlen
    rw [State.putOut0_out0Len, toNat_storedLength hlen] at hread
    simp only [Config.outCap] at hlen
    have hfit : out0Base + v.length ≤ windowEnd := by simp only [out0Base, windowEnd]; omega
    have hmem : (s.mem.writeVec out0Base v).writeVec out0Base v = s.mem.writeVec out0Base v :=
      Memory.writeVec_eq_self v (Memory.wf_writeVec v hs (by decide) hfit) (by decide) hfit hread
    simp only [State.finishSingle, State.putOut0, State.clearError, hmem]

/-- Completing a command with two results a second time changes nothing: each output still holds its vector. -/
theorem PairResult.finish_again {r : Except CommandError (BitVector × BitVector)} (hr : PairResult r) :
    (s.finishPair r).finishPair r = s.finishPair r := by
  match r, hr with
  | .error _, _ => rfl
  | .ok (v0, v1), ⟨n, hn, ⟨h0, _⟩, ⟨h1, _⟩⟩ =>
    have hlen : v1.length = v0.length := h1.trans h0.symm
    have hv : v0.length ≤ Config.outCap :=
      h0.trans_le ((by decide : ∀ n ∈ [40, 64, 124, 172], n ≤ Config.outCap) n hn)
    have hread0 := readVec_out0_putOutPair hs hlen hv
    have hread1 := readVec_out1_putOutPair hs hlen hv
    rw [State.putOutPair_out0Len, toNat_storedLength hv] at hread0
    rw [State.putOutPair_out1Len, toNat_storedLength hv, ← hlen] at hread1
    simp only [Config.outCap] at hv
    have hfit0 : out0Base + v0.length ≤ windowEnd := by simp only [out0Base, windowEnd]; omega
    have hfit1 : out1Base + v1.length ≤ windowEnd := by simp only [out1Base, windowEnd]; omega
    have hwf : (s.putOutPair v0 v1).mem.wf = true :=
      Memory.wf_writeVec v1 (Memory.wf_writeVec v0 hs (by decide) hfit0) (by decide) hfit1
    have hmem0 := Memory.writeVec_eq_self v0 hwf (by decide) hfit0 hread0
    have hmem1 := Memory.writeVec_eq_self v1 hwf (by decide) hfit1 hread1
    simp only [State.putOutPair_mem] at hmem0 hmem1
    simp only [State.finishPair, State.putOutPair, State.clearError, hmem0, hmem1]

end

/-- A command leaves the operand of the Manchester commands alone: it lies in IN, or it is the length error. -/
theorem CommandEffect.inputVector {s t : State} (h : CommandEffect s t) : t.inputVector = s.inputVector := by
  obtain ⟨-, hlen, -⟩ := h.operands
  by_cases hle : s.inLen.toNat ≤ 256
  · exact inputVector_congr hlen fun m hm => h.read_below_out0 (by simp only [inBase, out0Base]; omega)
  · have hlong : 256 < s.inLen.toNat := by omega
    rw [State.inputVector_error s hlong, State.inputVector_error t (hlen ▸ hlong)]

/-- A command finds its operands as they were, so it completes the same result again. -/
theorem exec_again {i : Instr} {s t : State} (hs : s.mem.wf = true) (h : exec i s = .next t) :
    exec i t = .next t := by
  have heff := exec_effect h
  obtain ⟨-, -, hhi, hrolling, hlo, -, -⟩ := heff.operands
  have hin := heff.inputVector
  cases i with
  | encodeV2 =>
    rw [exec_encodeV2] at h ⊢
    rw [hhi, hlo, hrolling]
    cases h
    rw [(encodeV2_result ..).finish_again hs]
  | encodeV2Bursts =>
    rw [exec_encodeV2Bursts] at h ⊢
    rw [hhi, hlo, hrolling]
    cases h
    rw [(encodeV2Bursts_result ..).finish_again hs]
  | manchesterEncode =>
    rw [exec_manchesterEncode] at h ⊢
    rw [hin]
    cases h
    rw [(manchesterEncode_result s).finish_again hs]
  | manchesterDecode =>
    rw [exec_manchesterDecode] at h ⊢
    rw [hin]
    cases h
    rw [(manchesterDecode_result s).finish_again hs]

end Sys2Proof.Machine

/-! PROOFS. The statements about the host window, settled. -/

namespace Sys2Proof.Proofs

open Sys2Proof.Machine

/-- Settles O9: each register is a target of its own width, and each byte of the buffers one of width 1. -/
theorem readsReturnTheValueAndChangeNothing : Obligations.ReadsReturnTheValueAndChangeNothing := by
  intro s rest
  constructor
  · suffices h : ∀ p ∈ Reg.all.map fun r => (r.offset, r.size, s.readReg r),
        s.pending = .access (.read p.1 p.2.1) :: rest →
        step s = .next { s with pending := rest, returned := s.returned ++ [p.2.2] } from h
    simp only [List.forall_mem_map]
    exact fun r _ hp => (step_cons hp).trans (hostRead_of_target (targetAt_reg r) _)
  · intro a h1 h2 hp
    obtain ⟨t, ht, -, hvalue⟩ := targetAt_byte h1 h2
    rw [step_cons hp, hostEvent, hostRead_of_target ht, hvalue]

/-- Settles O12: R51's forms are the targets of the register map. -/
theorem accessesRunExactlyWhenAdmitted : Obligations.AccessesRunExactlyWhenAdmitted := by
  intro s e rest hp
  rw [step_cons hp]
  exact ⟨fun h => hostEvent_next h _, fun h => hostEvent_refused h _⟩

/-- Settles O13: the first event runs, and leaves the others pending. -/
theorem admittedRunsNeverStop : Obligations.AdmittedRunsNeverStop := by
  intro s h
  cases hp : s.pending with
  | nil => exact ⟨s, step_nil hp, h⟩
  | cons e rest =>
    rw [State.admitted, hp, List.all_cons, Bool.and_eq_true] at h
    obtain ⟨he, hrest⟩ := h
    obtain ⟨t, ht⟩ := hostEvent_next he { s with pending := rest }
    exact ⟨t, (step_cons hp).trans ht, by rw [State.admitted, hostEvent_pending ht]; exact hrest⟩

/-- Settles O14: an access that addresses nothing is refused by the first reason that applies, one that addresses
something only when it writes a read-only target. -/
theorem unadmittedAccessesAreRefusedByName : Obligations.UnadmittedAccessesAreRefusedByName := by
  intro s rest acc a n hp hacc
  have hmem := refusalFor_mem (a := a) (n := n.bytes)
  have href : refusalFor a n.bytes ≠ .readOnlyWrite a := fun h => by simp [h] at hmem
  simp only [step_access_refused_iff hp hacc, reduceCtorEq, false_and, false_or, href, or_false, true_and]
  refine ⟨?_, outsideWindow_iff a n, ?_, ?_, ?_, ?_⟩
  · rw [exists_readOnly_target_iff]
  · simp only [unmappedByte_iff, isMapped_eq_false_iff]
    exact and_congr_right fun (hend : a + n.bytes ≤ 0x600) => exists_congr fun k => and_congr_right fun hk => by omega
  · rw [partialRegister_iff, Reg.exists_part_iff a n.bytes_pos]
  · rw [spansTargets_iff]
    exact or_congr_left (and_congr_right fun h => Reg.forall_not_covers_iff h)
  · rintro q (⟨rfl, -⟩ | ⟨rfl, -⟩)
    · exact List.mem_cons_self
    · exact List.mem_cons_of_mem _ hmem

/-- Settles O15: the nine rows are the register map, and one argument serves every register. -/
theorem registersAreLittleEndianInTheWindow : Obligations.RegistersAreLittleEndianInTheWindow := by
  intro s
  suffices h : ∀ p ∈ Reg.all.map fun r => (r.offset, r.size.bytes, (s.readReg r).toNat),
      (∀ k, k < p.2.1 →
        ∃ b, s.windowByte (p.1 + k) = some b ∧ ∀ j, j < 8 → b.getLsbD j = p.2.2.testBit (8 * k + j)) ∧
      p.2.2 < 2 ^ (8 * p.2.1) from h
  simp only [List.forall_mem_map]
  refine fun r _ => ⟨fun k hk => ⟨_, windowByte_reg s r hk, fun j hj => getLsbD_valueByte _ k hj⟩, ?_⟩
  exact size_readReg s r ▸ (s.readReg r).toNat_lt

/-- Settles O16: the window names exactly the mapped offsets. -/
theorem unmappedOffsetsNameNoByte : Obligations.UnmappedOffsetsNameNoByte :=
  fun s a => (windowByte_eq_none_iff s a).trans (isMapped_eq_false_iff a)

/-- Settles O18: the read-back and the frame of a vector write. -/
theorem vectorWriteReadsBackAndTouchesNothingElse : Obligations.VectorWriteReadsBackAndTouchesNothingElse :=
  fun m _ v hwf h1 h2 => ⟨Memory.readVec_writeVec v hwf h1 h2, fun _ h => Memory.read_writeVec_outside v m h⟩

/-- Settles O52: a command leaves its operands alone, and its outputs already hold its result. -/
theorem repeatingACommandChangesNothing : Obligations.RepeatingACommandChangesNothing :=
  fun _ _ _ hs h => exec_again hs h

end Sys2Proof.Proofs


/-! PROOFS. The decoder: which bytes decode, and to what (R70 to R73). -/

namespace Sys2Proof.Machine

theorem wellFormed_eq_true (i : Instr) : i.wellFormed = true := by cases i <;> rfl

/-- A code is a command's exactly when it is one of 0x01 to 0x04. -/
theorem exists_code_iff (c : Byte) : (∃ i : Instr, c = i.code) ↔ 1 ≤ c.toNat ∧ c.toNat ≤ 4 := by
  constructor
  · rintro ⟨i, rfl⟩
    cases i <;> decide
  · rintro ⟨h1, h4⟩
    have hval : c.toNat = 1 ∨ c.toNat = 2 ∨ c.toNat = 3 ∨ c.toNat = 4 := by omega
    obtain h | h | h | h := hval
    · exact ⟨.encodeV2, BitVec.eq_of_toNat_eq h⟩
    · exact ⟨.encodeV2Bursts, BitVec.eq_of_toNat_eq h⟩
    · exact ⟨.manchesterEncode, BitVec.eq_of_toNat_eq h⟩
    · exact ⟨.manchesterDecode, BitVec.eq_of_toNat_eq h⟩

/-- The codes that are no command's are the reserved ones of R73. -/
theorem decodeCode_eq_none_iff (c : Byte) : decodeCode c = none ↔ c.toNat = 0 ∨ 5 ≤ c.toNat := by
  have hsome : decodeCode c ≠ none ↔ 1 ≤ c.toNat ∧ c.toNat ≤ 4 := by
    simp only [Option.ne_none_iff_exists', decodeCode_eq_some, exists_code_iff]
  rw [← not_iff_not, ← ne_eq, hsome]
  omega

theorem decode_cons_of_some {c : Byte} {i : Instr} (h : decodeCode c = some i) (rest : List Byte) :
    decode (c :: rest) = .ok (i, rest) := by
  simp [decode, h]

theorem decode_cons_of_none {c : Byte} (h : decodeCode c = none) (rest : List Byte) :
    decode (c :: rest) = .error (.reservedCode c) := by
  simp [decode, h]

/-- An encoded command decodes to itself, whatever bytes follow it. -/
theorem decode_encode (i : Instr) (rest : List Byte) : decode (encode i ++ rest) = .ok (i, rest) :=
  decode_cons_of_some ((decodeCode_eq_some i.code i).mpr rfl) rest

/-- What decodes to a command is the command's encoding and the remaining bytes. -/
theorem eq_encode_of_decode {bytes : List Byte} {i : Instr} {rest : List Byte}
    (h : decode bytes = .ok (i, rest)) : bytes = encode i ++ rest := by
  match bytes with
  | [] => cases h
  | c :: tail =>
    cases hc : decodeCode c with
    | none =>
      rw [decode_cons_of_none hc] at h
      cases h
    | some j =>
      rw [decode_cons_of_some hc] at h
      cases h
      rw [(decodeCode_eq_some c i).mp hc]
      rfl

theorem decode_eq_reservedCode_iff (c : Byte) (rest : List Byte) :
    decode (c :: rest) = .error (.reservedCode c) ↔ decodeCode c = none := by
  cases hc : decodeCode c with
  | none => simp [decode_cons_of_none hc]
  | some i => simp [decode_cons_of_some hc]

end Sys2Proof.Machine

/-! PROOFS. The statements about the command encoding, settled. -/

namespace Sys2Proof.Proofs

open Sys2Proof.Machine

/-- Settles O3: every encoding decodes to its command, and the decoder's inversion gives the converse. -/
theorem decodeAndEncodeAgree : Obligations.DecodeAndEncodeAgree :=
  fun _ i rest => ⟨fun h => eq_encode_of_decode h.2, fun h => ⟨wellFormed_eq_true i, h ▸ decode_encode i rest⟩⟩

/-- Settles O1: the table is the four rows, and each word is its command's encoding. -/
theorem opcodeMapDecodesTheFourCodes : Obligations.OpcodeMapDecodesTheFourCodes :=
  ⟨rfl, decode_encode .encodeV2 [], decode_encode .encodeV2Bursts [], decode_encode .manchesterEncode [],
    decode_encode .manchesterDecode []⟩

/-- Settles O2: the reserved codes are those that `decodeCode` knows no command for. -/
theorem reservedCodesAreRejectedByName : Obligations.ReservedCodesAreRejectedByName :=
  fun c rest => (decodeCode_eq_none_iff c).symm.trans (decode_eq_reservedCode_iff c rest).symm

/-- Settles O5: the CMD write of a reserved code raises ILLEGAL_COMMAND at position 0. -/
theorem reservedCodeReportsIllegalCommand : Obligations.ReservedCodeReportsIllegalCommand := by
  intro s c rest hp hc
  rw [step_write hp, hostWrite_cmd, commandWrite_reserved ((decodeCode_eq_none_iff c).mpr hc)]
  rfl

end Sys2Proof.Proofs

/-! PROOFS. Vectors as numbers, and the elements of a vector made of groups of equal length. -/

namespace Sys2Proof.Machine

/-- Two slices that meet are one slice. -/
theorem slice_append_slice {α : Type} (v : List α) {a b c : Nat} (hab : a ≤ b) (hbc : b ≤ c) :
    slice v a b ++ slice v b c = slice v a c := by
  have hdrop : v.drop b = (v.drop a).drop (b - a) := by rw [List.drop_drop, Nat.add_sub_cancel' hab]
  rw [slice, slice, slice, hdrop, ← List.take_add, show b - a + (c - b) = c - a by omega]

/-- A slice beyond the first of two vectors is a slice of the second. -/
theorem slice_append_right {α : Type} (v w : List α) (a b : Nat) :
    slice (v ++ w) (v.length + a) (v.length + b) = slice w a b := by
  rw [slice, slice, ← List.drop_drop, List.drop_left, Nat.add_sub_add_left]

/-- A slice up to the end of a vector is what is left after its start. -/
theorem slice_to_end {α : Type} {v : List α} {b : Nat} (h : v.length ≤ b) (a : Nat) : slice v a b = v.drop a :=
  List.take_of_length_le (by rw [List.length_drop]; omega)

/-- Element j of group i, when each group has n elements. -/
theorem getElem?_flatMap {α β : Type} {f : α → List β} {n : Nat} (hf : ∀ a, (f a).length = n) (l : List α) (i : Nat)
    {j : Nat} (hj : j < n) : (l.flatMap f)[n * i + j]? = l[i]?.bind fun a => (f a)[j]? := by
  induction l generalizing i with
  | nil => rfl
  | cons a l ih =>
    rw [List.flatMap_cons]
    cases i with
    | zero => rw [Nat.mul_zero, Nat.zero_add, List.getElem?_append_left (hf a ▸ hj)]; rfl
    | succ i =>
      have hindex : n * (i + 1) + j - (f a).length = n * i + j := by rw [hf, Nat.mul_succ]; omega
      rw [List.getElem?_append_right (by rw [hf, Nat.mul_succ]; omega), hindex, ih, List.getElem?_cons_succ]

/-- Reading a vector as a number, with the value of what stands before it. -/
theorem foldl_eq_add_bvToNat (v : BitVector) (acc : Nat) :
    v.foldl (fun acc x => 2 * acc + x.toNat) acc = acc * 2 ^ v.length + bvToNat v := by
  induction v generalizing acc with
  | nil => simp [bvToNat]
  | cons x v ih =>
    rw [bvToNat, List.foldl_cons, List.foldl_cons, ih, ih, List.length_cons, Nat.pow_succ]
    ring

/-- The first of two vectors holds the more significant digits (R8). -/
theorem bvToNat_append (v w : BitVector) : bvToNat (v ++ w) = bvToNat v * 2 ^ w.length + bvToNat w := by
  rw [bvToNat, List.foldl_append, foldl_eq_add_bvToNat]
  rfl

/-- Without its n most significant bits a rendering is the rendering of the rest. -/
theorem drop_msbBits (x m n : Nat) : (msbBits x (m + n)).drop m = msbBits x n := by
  refine List.ext_getElem (by simp) fun i h1 h2 => ?_
  simp only [msbBits, List.getElem_drop, List.getElem_map, List.getElem_range]
  rw [show m + n - 1 - (m + i) = n - 1 - i by omega]

theorem toNat_bit (b : Bool) : (bit b).toNat = b.toNat := by cases b <;> rfl

/-- A rendering of one more bit begins with that bit. -/
theorem msbBits_succ (x n : Nat) : msbBits x (n + 1) = bit (x.testBit n) :: msbBits x n := by
  rw [← drop_msbBits x 1 n, Nat.add_comm 1 n]
  simp [msbBits, List.range_succ_eq_map]

/-- The MSB-first rendering of n bits spells the number below 2^n (R8). -/
theorem bvToNat_msbBits (x n : Nat) : bvToNat (msbBits x n) = x % 2 ^ n := by
  induction n with
  | zero => simp [msbBits, bvToNat, Nat.mod_one]
  | succ n ih =>
    rw [msbBits_succ, ← List.singleton_append, bvToNat_append, length_msbBits, ih, Nat.mod_pow_succ, ← Nat.toNat_testBit]
    simp [bvToNat, toNat_bit, Nat.add_comm, Nat.mul_comm]

end Sys2Proof.Machine

/-! PROOFS. The splitter: the two halves one after the other. -/

namespace Sys2Proof.Machine

/-- In short mode the two halves are the low 40 bits of FIXED_LO (R91). -/
theorem splitShort_append (lo : BitVec 64) : (splitShort lo).1 ++ (splitShort lo).2 = msbBits lo.toNat 40 := by
  rw [splitShort, slice_append_slice _ (by decide) (by decide), slice_to_end (by simp)]
  exact drop_msbBits lo.toNat 24 40

/-- In long mode the two halves are all 72 bits (R92). -/
theorem splitLong_append (hi : BitVec 8) (lo : BitVec 64) :
    (splitLong hi lo).1 ++ (splitLong hi lo).2 = msbBits hi.toNat 8 ++ msbBits lo.toNat 64 := by
  rw [splitLong, slice_append_slice _ (by decide) (by decide), slice_to_end (by simp), List.drop_zero]

theorem isLong_iff (hi : BitVec 8) (lo : BitVec 64) : isLong hi lo = true ↔ 2 ^ 40 ≤ identifier hi lo := by
  simp only [isLong, identifier, Bool.or_eq_true, decide_eq_true_eq]
  omega

/-- The halves one after the other, read MSB first, are the identifier (R76, R93). -/
theorem bvToNat_halves (hi : BitVec 8) (lo : BitVec 64) :
    bvToNat ((fixedSplit hi lo).half1 ++ (fixedSplit hi lo).half2) = identifier hi lo := by
  cases h : isLong hi lo with
  | false =>
    have hshort : ¬ 2 ^ 40 ≤ identifier hi lo := fun hle => by simp [(isLong_iff hi lo).mpr hle] at h
    simp only [fixedSplit, h, Bool.false_eq_true, if_false, splitShort_append, bvToNat_msbBits]
    simp only [identifier] at hshort ⊢
    omega
  | true =>
    simp only [fixedSplit, h, if_true, splitLong_append, bvToNat_append, bvToNat_msbBits, length_msbBits]
    rw [Nat.mod_eq_of_lt hi.isLt, Nat.mod_eq_of_lt lo.isLt, identifier]

end Sys2Proof.Machine

/-! PROOFS. The transformer's halves as symbols, one after the other. -/

namespace Sys2Proof.Machine

/-- What the transformer answers for a rolling code in range (R100). -/
theorem rollingTransform_in_range {r : BitVec 32} (h : r.toNat < 2 ^ 28) :
    rollingTransform r = .ok (halfA (trits (reverse28 r.toNat)), halfB (trits (reverse28 r.toNat))) := by
  rw [rollingTransform, if_neg (Nat.not_le.mpr h)]

theorem rollingTransform_out_of_range {r : BitVec 32} (h : 2 ^ 28 ≤ r.toNat) :
    rollingTransform r = .error .rollingOutOfRange := by
  rw [rollingTransform, if_pos h]

/-- The inversion of the transformer: the halves it answers are those of the code's trits. -/
theorem halves_of_rollingTransform {r : BitVec 32} {hA hB : BitVector} (h : rollingTransform r = .ok (hA, hB)) :
    hA = halfA (trits (reverse28 r.toNat)) ∧ hB = halfB (trits (reverse28 r.toNat)) := by
  by_cases hr : r.toNat < 2 ^ 28
  · rw [rollingTransform_in_range hr] at h
    cases h
    exact ⟨rfl, rfl⟩
  · rw [rollingTransform_out_of_range (Nat.le_of_not_lt hr)] at h
    cases h

theorem halfA_eq_flatMap (t : List Trit) :
    halfA t = ((slice t 0 4).reverse ++ (slice t 8 12).reverse ++ (slice t 16 17).reverse).flatMap sym := by
  simp only [halfA, piece, List.flatMap_append]

theorem halfB_eq_flatMap (t : List Trit) :
    halfB t = ((slice t 4 8).reverse ++ (slice t 12 16).reverse ++ (slice t 17 18).reverse).flatMap sym := by
  simp only [halfB, piece, List.flatMap_append]

/-- Each aligned pair of a vector of symbols is one trit's symbol (R103). -/
theorem exists_sym_of_pair (l : List Trit) {k : Nat} (hk : 2 * k < (l.flatMap sym).length) :
    ∃ t, slice (l.flatMap sym) (2 * k) (2 * k + 2) = sym t := by
  induction l generalizing k with
  | nil => simp at hk
  | cons t l ih =>
    cases k with
    | zero => exact ⟨t, rfl⟩
    | succ k =>
      obtain ⟨u, hu⟩ := ih (k := k) (by simp [sym] at hk ⊢; omega)
      have hskip := slice_append_right (sym t) (l.flatMap sym) (2 * k) (2 * k + 2)
      rw [show (sym t).length = 2 from rfl] at hskip
      exact ⟨u, by rw [List.flatMap_cons, show 2 * (k + 1) = 2 + 2 * k by omega, Nat.add_assoc, hskip, hu]⟩

/-- A trit's symbol is 00, 01 or 10 (R78, R103). -/
theorem sym_mem : ∀ t : Trit, sym t ∈ [[0x00#8, 0x00#8], [0x00#8, 0x01#8], [0x01#8, 0x00#8]] := by decide

/-- The nine aligned pairs of a vector of symbols with 18 elements are symbols (R78, R105). -/
theorem pairs_of_flatMap_sym {h : BitVector} {l : List Trit} (hl : h = l.flatMap sym) (hlen : h.length = 18) {k : Nat}
    (hk : k < 9) : slice h (2 * k) (2 * k + 2) ∈ [[0x00#8, 0x00#8], [0x00#8, 0x01#8], [0x01#8, 0x00#8]] := by
  obtain ⟨t, ht⟩ := exists_sym_of_pair l (k := k) (by rw [← hl, hlen]; omega)
  rw [hl, ht]
  exact sym_mem t

end Sys2Proof.Machine

/-! PROOFS. The ROM words (R82). -/

namespace Sys2Proof.Machine

/-- The word of an order entry: its three fields under a valid bit. -/
def validOrderWord (p : Perm3) : BitVec 7 :=
  1#1 ++ BitVec.ofNat 2 (permImages p).1.val ++ BitVec.ofNat 2 (permImages p).2.1.val
    ++ BitVec.ofNat 2 (permImages p).2.2.val

/-- The word of a mask: its three bits under a valid bit. -/
def validInvWord (v0 v1 v2 : Bool) : BitVec 4 := 1#1 ++ BitVec.ofBool v0 ++ BitVec.ofBool v1 ++ BitVec.ofBool v2

theorem orderWord_of_some {oe : OrderExt} {k : Nat} {p : Perm3} (h : romOrder oe k = some p) :
    orderWord oe k = validOrderWord p := by
  simp only [orderWord, h, validOrderWord]

theorem invWord_of_some {ie : InvExt} {k : Nat} {m : InvMask} (h : romInv ie k = some m) :
    invWord ie k = validInvWord m.v0 m.v1 m.v2 := by
  simp only [invWord, h, validInvWord]

theorem validOrderWord_fields (p : Perm3) :
    (validOrderWord p).getLsbD 6 = true ∧ (validOrderWord p).toNat / 16 % 4 = (permImages p).1.val ∧
    (validOrderWord p).toNat / 4 % 4 = (permImages p).2.1.val ∧
    (validOrderWord p).toNat % 4 = (permImages p).2.2.val := by
  cases p <;> decide

theorem validInvWord_bits : ∀ v0 v1 v2 : Bool,
    (validInvWord v0 v1 v2).getLsbD 3 = true ∧ (validInvWord v0 v1 v2).getLsbD 2 = v0 ∧
    (validInvWord v0 v1 v2).getLsbD 1 = v1 ∧ (validInvWord v0 v1 v2).getLsbD 0 = v2 := by decide

/-- Bit 6 of an order word says whether the key has an entry; a missing key's other bits stay below it. -/
theorem orderWord_valid (oe : OrderExt) (k : Nat) : (orderWord oe k).getLsbD 6 = (romOrder oe k).isSome := by
  cases h : romOrder oe k with
  | none =>
    rw [show orderWord oe k = 0#1 ++ Config.orderWordRest k by simp only [orderWord, h]]
    exact BitVec.getLsbD_append.trans rfl
  | some p =>
    rw [orderWord_of_some h]
    exact (validOrderWord_fields p).1

/-- Bit 3 of an inversion word says whether the key has an entry. -/
theorem invWord_valid (ie : InvExt) (k : Nat) : (invWord ie k).getLsbD 3 = (romInv ie k).isSome := by
  cases h : romInv ie k with
  | none =>
    rw [show invWord ie k = 0#1 ++ Config.invWordRest k by simp only [invWord, h]]
    exact BitVec.getLsbD_append.trans rfl
  | some m =>
    rw [invWord_of_some h]
    exact (validInvWord_bits m.v0 m.v1 m.v2).1

/-- An order entry is a permutation of {0, 1, 2} (R118). -/
theorem permImages_perm (p : Perm3) :
    List.Perm [(permImages p).1, (permImages p).2.1, (permImages p).2.2] [0, 1, 2] := by
  cases p <;> decide

end Sys2Proof.Machine

/-! PROOFS. The elements of a packet (R79, R121, R122). -/

namespace Sys2Proof.Machine

@[simp] theorem length_overwritePart (rolling part : BitVector) (p : Nat) :
    (overwritePart rolling part p).length = part.length :=
  List.foldlRecOn (motive := fun v : BitVector => v.length = part.length) _ _ rfl fun _ hv _ _ => by
    rw [List.length_set, hv]

theorem length_paddedPart {rolling : BitVector} (hr : rolling.length = 18) (p : Nat) :
    (paddedPart rolling p).length = p := by
  simp [paddedPart, rep, hr]
  omega

/-- Each of the three parts has P elements (R115, R116). -/
theorem length_makeParts {fixed rolling : BitVector} {long : Bool} (hf : fixed.length = 2 * partLength long)
    (hr : rolling.length = 18) (j : Fin 3) : ((makeParts fixed rolling long).get j).length = partLength long := by
  match j with
  | 0 => simp [makeParts, Parts.get, hf]; omega
  | 1 => simp [makeParts, Parts.get, hf]; omega
  | 2 => cases long <;> simp [makeParts, Parts.get, length_paddedPart hr]

/-- The inversion of the assembler: both keys have an entry, and the packet is emitted with them. -/
theorem encodeHalf_eq_ok {oe : OrderExt} {ie : InvExt} {fixed rolling : BitVector} {long : Bool} {p : BitVector}
    (h : encodeHalf oe ie fixed rolling long = .ok p) :
    ∃ order inv, romOrder oe (orderKey rolling) = some order ∧ romInv ie (inversionKey rolling) = some inv ∧
      p = emitPacket rolling long (permute order (makeParts fixed rolling long)) inv := by
  unfold encodeHalf at h
  split at h
  · cases h
  · next order horder =>
    split at h
    · cases h
    · next inv hinv =>
      cases h
      exact ⟨order, inv, horder, hinv, rfl⟩

/-- The first ten elements of a packet: a 0, the mode and rolling[0..8) (R79). -/
def packetHeader (rolling : BitVector) (long : Bool) : BitVector := [bit false] ++ [bit long] ++ slice rolling 0 8

/-- The interleaved elements of a packet, from element 10 on (R79). -/
def packetBody (long : Bool) (ps : Parts) (inv : InvMask) : BitVector :=
  (List.range (partLength long)).flatMap (emitTriple ps inv)

theorem emitPacket_eq (rolling : BitVector) (long : Bool) (ps : Parts) (inv : InvMask) :
    emitPacket rolling long ps inv = packetHeader rolling long ++ packetBody long ps inv := rfl

theorem length_packetHeader {rolling : BitVector} (hr : rolling.length = 18) (long : Bool) :
    (packetHeader rolling long).length = 10 := by
  simp [packetHeader, hr]

theorem length_emitPacket {rolling : BitVector} (hr : rolling.length = 18) (long : Bool) (ps : Parts) (inv : InvMask) :
    (emitPacket rolling long ps inv).length = packetLength long := by
  simp [emitPacket_eq, length_packetHeader hr, packetBody, packetLength, List.length_flatMap, emitTriple, Nat.mul_comm]

/-- Elements 2 to 9 of a packet are rolling[0..8). -/
theorem emitPacket_getElem?_rolling {rolling : BitVector} (hr : rolling.length = 18) (long : Bool) (ps : Parts)
    (inv : InvMask) {k : Nat} (hk : k < 8) : (emitPacket rolling long ps inv)[2 + k]? = rolling[k]? := by
  rw [emitPacket_eq, List.getElem?_append_left (by rw [length_packetHeader hr]; omega), packetHeader,
    List.getElem?_append_right (by simp)]
  simp [slice, hk]

/-- From element 10 on, a packet is the triples of its body. -/
theorem emitPacket_getElem?_body {rolling : BitVector} (hr : rolling.length = 18) {long : Bool} (ps : Parts)
    (inv : InvMask) {i j : Nat} (hi : i < partLength long) (hj : j < 3) :
    (emitPacket rolling long ps inv)[10 + 3 * i + j]? = (emitTriple ps inv i)[j]? := by
  have htriple : ∀ a, (emitTriple ps inv a).length = 3 := fun _ => rfl
  rw [emitPacket_eq, Nat.add_assoc, List.getElem?_append_right (by rw [length_packetHeader hr]; omega),
    length_packetHeader hr, Nat.add_sub_cancel_left, packetBody, getElem?_flatMap htriple _ i hj,
    List.getElem?_range hi]
  rfl

/-- Element i of a part that reaches beyond i, inverted or not. -/
theorem getD_xor_eq_map {v : BitVector} {i : Nat} (hi : i < v.length) (b : Bool) :
    some (v.getD i 0x00#8 ^^^ bit b) = v[i]?.map (· ^^^ bit b) := by
  rw [List.getD_eq_getElem _ _ hi, List.getElem?_eq_getElem hi]
  rfl

end Sys2Proof.Machine

/-! PROOFS. The encoder on bits, and the elements of a burst (R80, R137, R150). -/

namespace Sys2Proof.Machine

/-- The Manchester symbol of a bit (R81). -/
def manchesterPair (x : Byte) : BitVector := if x = 0x00#8 then [0x01#8, 0x00#8] else [0x00#8, 0x01#8]

theorem length_manchesterPair (x : Byte) : (manchesterPair x).length = 2 := by
  unfold manchesterPair
  split <;> rfl

/-- On bits the encoder answers the symbols of its elements, in order. -/
theorem manchesterEncodeFrom_eq_flatMap (m : Nat) {v : BitVector} (hv : allBits v = true) :
    manchesterEncodeFrom m v = .ok (v.flatMap manchesterPair) := by
  induction v generalizing m with
  | nil => rfl
  | cons x v ih =>
    rw [allBits_cons, Bool.and_eq_true, isBit_iff] at hv
    obtain ⟨rfl | rfl, hrest⟩ := hv
    · simp [manchesterEncodeFrom, ih (m + 1) hrest, Except.map, manchesterPair]
    · simp [manchesterEncodeFrom, ih (m + 1) hrest, Except.map, manchesterPair]

theorem syncRom_bits : IsBits 20 syncRom := ⟨rfl, rfl⟩

/-- The vector that BurstBuilder encodes: SYNC_ROM, a 0, the burst index and the packet (R80). -/
def burstMessage (index : Bool) (packet : BitVector) : BitVector := syncRom ++ [bit false] ++ [bit index] ++ packet

theorem length_burstMessage (index : Bool) (p : BitVector) : (burstMessage index p).length = 22 + p.length := by
  simp [burstMessage, syncRom_bits.1]
  omega

/-- A burst of a packet of bits is the symbols of its message. -/
theorem burst_eq_flatMap (index : Bool) {p : BitVector} (hp : allBits p = true) :
    burst index p = .ok ((burstMessage index p).flatMap manchesterPair) :=
  manchesterEncodeFrom_eq_flatMap 0 (by simp [syncRom_bits.2, hp])

/-- An element of n copies of a byte, or of what follows them. -/
theorem rep_append_getElem? (x : Byte) (n : Nat) (v : BitVector) (m : Nat) :
    (rep x n ++ v)[m]? = if m < n then some x else v[m - n]? := by
  rw [List.getElem?_append, rep, List.length_replicate]
  split_ifs with h
  · exact List.getElem?_replicate_of_lt h
  · rfl

/-- The elements of the message: sixteen 0, four 1, a 0, the burst index, the packet. -/
theorem burstMessage_getElem? (index : Bool) (p : BitVector) (m : Nat) :
    (burstMessage index p)[m]? =
      if m < 16 then some 0x00#8 else if m < 20 then some 0x01#8 else if m = 20 then some 0x00#8
      else if m = 21 then some (bit index) else p[m - 22]? := by
  have hmsg : burstMessage index p = rep 0x00#8 16 ++ (rep 0x01#8 4 ++ 0x00#8 :: bit index :: p) := rfl
  rw [hmsg, rep_append_getElem?, rep_append_getElem?]
  refine if_congr Iff.rfl rfl ?_
  by_cases h20 : m < 20
  · rw [if_pos h20, if_pos (by omega)]
  · rw [if_neg h20, if_neg (by omega)]
    obtain ⟨k, rfl⟩ := Nat.exists_eq_add_of_le (Nat.le_of_not_lt h20)
    match k with
    | 0 => rfl
    | 1 => rfl
    | k + 2 => rw [if_neg (by omega), if_neg (by omega), show 20 + (k + 2) - 16 - 4 = k + 2 by omega,
        show 20 + (k + 2) - 22 = k by omega]; rfl

/-- Elements 2m and 2m+1 of the symbols of a vector are the symbol of element m. -/
theorem flatMap_manchesterPair_getElem? {v : BitVector} {m : Nat} (hm : m < v.length) :
    ((v.flatMap manchesterPair)[2 * m]?, (v.flatMap manchesterPair)[2 * m + 1]?) =
      if v[m]? = some 0x00#8 then (some 0x01#8, some 0x00#8) else (some 0x00#8, some 0x01#8) := by
  have h0 := getElem?_flatMap length_manchesterPair v m (j := 0) (by decide)
  have h1 := getElem?_flatMap length_manchesterPair v m (j := 1) (by decide)
  rw [Nat.add_zero] at h0
  rw [h0, h1, List.getElem?_eq_getElem hm]
  by_cases hzero : v[m] = 0x00#8 <;> simp [manchesterPair, hzero]

end Sys2Proof.Machine

/-! PROOFS. The ENCODE commands in and out of range, and what completing a command leaves in the outputs. -/

namespace Sys2Proof.Machine

/-- A result that cannot be an error is a value. -/
theorem Satisfies.exists_ok {ε α : Type} {ok : α → Prop} {r : Except ε α} (h : Satisfies ok (fun _ => False) r) :
    ∃ a, r = .ok a ∧ ok a := by
  match r, h with
  | .ok a, ha => exact ⟨a, rfl, ha⟩

section
variable (oe : OrderExt) (ie : InvExt) (hi : BitVec 8) (lo : BitVec 64) {r : BitVec 32}

/-- In range EncodeV2 answers the two packets of the assembler (R120, R135). -/
theorem encodeV2_in_range (h : r.toNat < 2 ^ 28) : ∃ hA hB p0 p1, rollingTransform r = .ok (hA, hB) ∧
    encodeHalf oe ie (fixedSplit hi lo).half1 hA (fixedSplit hi lo).long = .ok p0 ∧
    encodeHalf oe ie (fixedSplit hi lo).half2 hB (fixedSplit hi lo).long = .ok p1 ∧
    encodeV2 oe ie hi lo r = .ok (p0, p1) ∧
    IsBits (packetLength (isLong hi lo)) p0 ∧ IsBits (packetLength (isLong hi lo)) p1 := by
  obtain ⟨hf1, hf2⟩ := fixedSplit_bits hi lo
  have hroll := rollingTransform_in_range h
  have hsat := rollingTransform_satisfies r
  rw [hroll] at hsat
  obtain ⟨hA, hB⟩ := hsat
  obtain ⟨p0, hp0, hbits0⟩ := (encodeHalf_satisfies oe ie hf1.2 hA (isLong hi lo)).exists_ok
  obtain ⟨p1, hp1, hbits1⟩ := (encodeHalf_satisfies oe ie hf2.2 hB (isLong hi lo)).exists_ok
  refine ⟨_, _, p0, p1, hroll, hp0, hp1, ?_, hbits0, hbits1⟩
  have hlong : (fixedSplit hi lo).long = isLong hi lo := rfl
  simp only [encodeV2, hroll, hlong, atPosition, Except.bind, hp0, hp1]

theorem encodeV2_out_of_range (h : 2 ^ 28 ≤ r.toNat) : encodeV2 oe ie hi lo r = .error ⟨.rollingOutOfRange, 0⟩ := by
  simp only [encodeV2, rollingTransform_out_of_range h, atPosition, Except.bind]

/-- In range the two bursts are those of the two packets (R138). -/
theorem encodeV2Bursts_in_range {p0 p1 : BitVector} (h : encodeV2 oe ie hi lo r = .ok (p0, p1)) {n : Nat}
    (h0 : IsBits n p0) (h1 : IsBits n p1) : ∃ b0 b1, burst false p0 = .ok b0 ∧ burst true p1 = .ok b1 ∧
      encodeV2Bursts oe ie hi lo r = .ok (b0, b1) ∧ IsBits (2 * (22 + n)) b0 ∧ IsBits (2 * (22 + n)) b1 := by
  obtain ⟨b0, hb0, hbits0⟩ := (burst_satisfies false h0).exists_ok
  obtain ⟨b1, hb1, hbits1⟩ := (burst_satisfies true h1).exists_ok
  refine ⟨b0, b1, hb0, hb1, ?_, hbits0, hbits1⟩
  simp only [encodeV2Bursts, h, Except.bind, hb0, hb1]

theorem encodeV2Bursts_out_of_range (h : 2 ^ 28 ≤ r.toNat) :
    encodeV2Bursts oe ie hi lo r = .error ⟨.rollingOutOfRange, 0⟩ := by
  simp only [encodeV2Bursts, encodeV2_out_of_range oe ie hi lo h, Except.bind]

end

/-- What completing a command with the vectors v0 and v1 leaves: both in the outputs, their length in both length
registers, a cleared report, and everything else as it was (R136, R138). -/
def CompletedPair (s t : State) (v0 v1 : BitVector) : Prop :=
  t.mem.readVec out0Base v0.length = v0 ∧ t.mem.readVec out1Base v0.length = v1 ∧
  t.out0Len.toNat = v0.length ∧ t.out1Len.toNat = v0.length ∧
  t = { s with mem := t.mem, out0Len := t.out0Len, out1Len := t.out1Len, errCode := 0x00#8, errPos := 0x0000#16 } ∧
  ∀ a, (a < out0Base ∨ out0Base + v0.length ≤ a) → (a < out1Base ∨ out1Base + v0.length ≤ a) →
    t.mem.read a = s.mem.read a

theorem finishPair_completed {s : State} (hs : s.mem.wf = true) {v0 v1 : BitVector} (hlen : v1.length = v0.length)
    (hv : v0.length ≤ Config.outCap) : CompletedPair s (s.finishPair (.ok (v0, v1))) v0 v1 := by
  have h0 := readVec_out0_putOutPair hs hlen hv
  have h1 := readVec_out1_putOutPair hs hlen hv
  rw [State.putOutPair_out0Len, toNat_storedLength hv] at h0
  rw [State.putOutPair_out1Len, toNat_storedLength hv] at h1
  refine ⟨h0, h1, toNat_storedLength hv, toNat_storedLength hv, rfl, fun a ha0 ha1 => ?_⟩
  exact (Memory.read_writeVec_outside v1 _ (hlen ▸ ha1)).trans (Memory.read_writeVec_outside v0 _ ha0)

/-- Completing a command with one result leaves OUT1 and OUT1_LEN alone: the vector ends before OUT1. -/
theorem SingleResult.leaves_out1 (s : State) {r : Except CommandError BitVector} (h : SingleResult r) :
    (s.finishSingle r).out1Len = s.out1Len ∧
    ∀ a, out1Base ≤ a → (s.finishSingle r).mem.read a = s.mem.read a := by
  match r, h with
  | .error _, _ => exact ⟨rfl, fun _ _ => rfl⟩
  | .ok v, ⟨hlen, _⟩ =>
    refine ⟨rfl, fun a ha => Memory.read_writeVec_outside v _ (.inr ?_)⟩
    simp only [Config.outCap, out0Base, out1Base] at *
    omega

end Sys2Proof.Machine

/-! PROOFS. Runs of host events, and the programs of R75. -/

namespace Sys2Proof.Machine

theorem run_succ_of_step {s s' : State} (h : step s = .next s') (k : Nat) :
    Host.Core.run core (k + 1) s = Host.Core.run core k s' := by
  have hcore : core.step s = .next s' := h
  simp only [Host.Core.run, hcore]

/-- A run that succeeds begins with a step that answers a next state. -/
theorem step_of_run_succ {k : Nat} {s t : State} (h : Host.Core.run core (k + 1) s = .next t) :
    ∃ s', step s = .next s' ∧ Host.Core.run core k s' = .next t := by
  cases hcore : core.step s with
  | next s' => exact ⟨s', hcore, (run_succ_of_step hcore k).symm.trans h⟩
  | fault r => simp [Host.Core.run, hcore] at h
  | refused r => simp [Host.Core.run, hcore] at h

/-- A run of j steps that succeeds, and then k more. -/
theorem run_add {j : Nat} {s t : State} (h : Host.Core.run core j s = .next t) (k : Nat) :
    Host.Core.run core (j + k) s = Host.Core.run core k t := by
  induction j generalizing s with
  | zero =>
    cases h
    rw [Nat.zero_add]
  | succ j ih =>
    obtain ⟨s', hstep, hrun⟩ := step_of_run_succ h
    rw [Nat.succ_add, run_succ_of_step hstep, ih hrun]

/-- The events, when they are the oldest pending ones, take the block from s to t: whatever is pending after them is
then pending. -/
def Performs (es : List HostEvent) (s t : State) : Prop :=
  ∀ rest, Host.Core.run core es.length { s with pending := es ++ rest } = .next { t with pending := rest }

theorem Performs.run {es : List HostEvent} {s t : State} (h : Performs es s t) {rest : List HostEvent}
    (hp : s.pending = es ++ rest) : Host.Core.run core es.length s = .next { t with pending := rest } := by
  have hs : s = { s with pending := es ++ rest } := by rw [← hp]
  rw [hs]
  exact h rest

theorem Performs.nil (s : State) : Performs [] s s := fun _ => rfl

theorem Performs.append {es es' : List HostEvent} {s t u : State} (h : Performs es s t) (h' : Performs es' t u) :
    Performs (es ++ es') s u := by
  intro rest
  rw [List.append_assoc, List.length_append, run_add (h (es' ++ rest))]
  exact h' rest

/-- One event whose effect does not look at what is pending. -/
theorem Performs.single {e : HostEvent} {s t : State}
    (h : ∀ rest, hostEvent e { s with pending := rest } = .next { t with pending := rest }) : Performs [e] s t := by
  intro rest
  exact run_succ_of_step ((step_cons (s := { s with pending := [e] ++ rest }) rfl).trans (h rest)) 0

theorem performs_inputWrite {i : Nat} (hi : i < 256) (x : Byte) (s : State) :
    Performs [.access (.write (inBase + i) (.b1 x))] s { s with mem := s.mem.write (inBase + i) x } :=
  .single fun _ => hostWrite_input hi x _

theorem performs_hostWR_inLen (x : Nat) (s : State) :
    Performs (hostWR .inLen x) s { s with inLen := BitVec.ofNat 16 x } :=
  .single fun _ => hostWrite_inLen _ _

theorem performs_hostRD (r : Reg) (s : State) :
    Performs (hostRD r) s { s with returned := s.returned ++ [s.readReg r] } :=
  .single fun rest => (hostRead_of_target (targetAt_reg r) _).trans (by cases r <;> rfl)

theorem hostWRIN_cons (i : Nat) (x : Byte) (v : BitVector) :
    hostWRIN i (x :: v) = [.access (.write (inBase + i) (.b1 x))] ++ hostWRIN (i + 1) v := by
  simp [hostWRIN, Nat.add_assoc, Nat.add_comm 1]

/-- WRIN writes its elements one after the other (R75). -/
theorem performs_hostWRIN (v : BitVector) {i : Nat} (hi : i + v.length ≤ 256) (s : State) :
    Performs (hostWRIN i v) s { s with mem := s.mem.writeVec (inBase + i) v } := by
  induction v generalizing i s with
  | nil => exact .nil s
  | cons x v ih =>
    rw [List.length_cons] at hi
    rw [hostWRIN_cons]
    exact (performs_inputWrite (by omega) x s).append (ih (i := i + 1) (by omega) _)

/-- LOADVEC writes the vector to IN and its length to IN_LEN (R75). -/
theorem performs_hostLOADVEC {v : BitVector} (hv : v.length ≤ 256) (s : State) :
    Performs (hostLOADVEC v) s
      { s with mem := s.mem.writeVec inBase v, inLen := BitVec.ofNat 16 v.length } :=
  (performs_hostWRIN v (i := 0) (by omega) s).append (performs_hostWR_inLen _ _)

/-- Reading one more element. -/
theorem Memory.readVec_succ (m : Memory) (base n : Nat) :
    m.readVec base (n + 1) = m.readVec base n ++ [m.read (base + n)] := by
  simp [Memory.readVec, List.range_succ]

theorem Memory.writeVec_append (v w : BitVector) (m : Memory) (base : Nat) :
    m.writeVec base (v ++ w) = (m.writeVec base v).writeVec (base + v.length) w := by
  induction v generalizing m base with
  | nil => rfl
  | cons x v ih => rw [List.cons_append, Memory.writeVec, ih, Memory.writeVec, List.length_cons, Nat.add_assoc,
      Nat.add_comm 1]

/-- Read OUT0[k] and write it to IN[k]: one round of COPYOUT0 (R75). -/
def copyRound (m : Memory) (k : Nat) : List HostEvent := hostRDOUT0 k 1 ++ hostWRIN k [m.read (out0Base + k)]

/-- The state after n rounds of COPYOUT0. -/
def State.copied (s : State) (n : Nat) : State :=
  { s with
    mem := s.mem.writeVec inBase (s.mem.readVec out0Base n)
    returned := s.returned ++ (s.mem.readVec out0Base n).map HostValue.b1 }

/-- The first rounds of COPYOUT0 leave OUT0 as it was. -/
theorem read_out0_copied (s : State) {n : Nat} (hn : n ≤ 256) {a : Nat} (ha : out0Base ≤ a) :
    (s.copied n).mem.read a = s.mem.read a :=
  Memory.read_writeVec_outside _ _ (.inr (by simp only [Memory.length_readVec, inBase, out0Base] at *; omega))

theorem performs_hostRDOUT0_one {k : Nat} (hk : k < 512) (s : State) :
    Performs (hostRDOUT0 k 1) s { s with returned := s.returned ++ [.b1 (s.mem.read (out0Base + k))] } :=
  .single fun _ => hostRead_of_target (targetAt_output0 hk) _

theorem copied_succ (s : State) {n : Nat} (hn : n ≤ 256) :
    s.copied (n + 1) =
      { s.copied n with
        mem := (s.copied n).mem.writeVec (inBase + n) [s.mem.read (out0Base + n)]
        returned := (s.copied n).returned ++ [.b1 ((s.copied n).mem.read (out0Base + n))] } := by
  rw [read_out0_copied s hn (Nat.le_add_right _ _)]
  simp only [State.copied, Memory.readVec_succ, Memory.writeVec_append, Memory.length_readVec, List.map_append,
    List.map_cons, List.map_nil, List.append_assoc]

/-- The rounds of COPYOUT0, one after the other. -/
theorem performs_copyRounds (s : State) {n : Nat} (hn : n ≤ 256) :
    Performs ((List.range n).flatMap (copyRound s.mem)) s (s.copied n) := by
  induction n with
  | zero => simpa [State.copied, Memory.readVec, Memory.writeVec] using Performs.nil s
  | succ n ih =>
    have hread := performs_hostRDOUT0_one (k := n) (by omega) (s.copied n)
    have hwrite := performs_hostWRIN [s.mem.read (out0Base + n)] (i := n) (by simpa using hn)
      { s.copied n with returned := (s.copied n).returned ++ [.b1 ((s.copied n).mem.read (out0Base + n))] }
    rw [List.range_succ, List.flatMap_append, List.flatMap_singleton, copied_succ s (by omega)]
    exact (ih (by omega)).append (hread.append hwrite)

/-- COPYOUT0 reads OUT0_LEN, copies the elements, and writes their number to IN_LEN (R75). -/
theorem performs_hostCOPYOUT0 (s : State) (hn : s.out0Len.toNat ≤ 256) :
    Performs (hostCOPYOUT0 s) s
      { State.copied { s with returned := s.returned ++ [.b2 s.out0Len] } s.out0Len.toNat with
        inLen := s.out0Len } := by
  have hlast := performs_hostWR_inLen s.out0Len.toNat
    (State.copied { s with returned := s.returned ++ [.b2 s.out0Len] } s.out0Len.toNat)
  rw [BitVec.ofNat_toNat, BitVec.setWidth_eq] at hlast
  exact ((performs_hostRD .out0Len s).append
    (performs_copyRounds { s with returned := s.returned ++ [.b2 s.out0Len] } hn)).append hlast

end Sys2Proof.Machine

/-! PROOFS. The statements about the sub-functions, the commands and the host's programs, settled. -/

namespace Sys2Proof.Proofs

open Sys2Proof.Machine

/-- Settles O21: the halves meet in the middle of one MSB-first rendering. -/
theorem halvesSpellTheIdentifier : Obligations.HalvesSpellTheIdentifier := by
  intro hi lo
  obtain ⟨⟨hlen1, hbits1⟩, hlen2, hbits2⟩ := fixedSplit_bits hi lo
  have hlong : (fixedSplit hi lo).long = isLong hi lo := rfl
  have htwice : 2 * partLength (isLong hi lo) = if isLong hi lo then 36 else 20 := by cases isLong hi lo <;> rfl
  rw [hlong, hlen1, hlen2, htwice, allBits_append, hbits1, hbits2]
  exact ⟨(isLong_iff hi lo).trans (by omega), bvToNat_halves hi lo, rfl, rfl, rfl⟩

/-- Settles O26: both halves are vectors of trit symbols. -/
theorem rollingHalvesHoldOnlyTritSymbols : Obligations.RollingHalvesHoldOnlyTritSymbols := by
  intro r hA hB hr h hor
  have hsat := rollingTransform_satisfies r
  rw [hr] at hsat
  obtain ⟨hhalfA, hhalfB⟩ := hsat
  obtain ⟨hAeq, hBeq⟩ := halves_of_rollingTransform hr
  obtain rfl | rfl := hor
  · exact ⟨hhalfA.bits.1, fun k => pairs_of_flatMap_sym (hAeq.trans (halfA_eq_flatMap _)) hhalfA.bits.1,
      hhalfA.orderKey, hhalfA.inversionKey⟩
  · exact ⟨hhalfB.bits.1, fun k => pairs_of_flatMap_sym (hBeq.trans (halfB_eq_flatMap _)) hhalfB.bits.1,
      hhalfB.orderKey, hhalfB.inversionKey⟩

/-- Settles O29: the valid bit of every word, and the fields of a valid one. -/
theorem romWordsHoldTheTables : Obligations.RomWordsHoldTheTables := by
  intro oe ie k
  refine ⟨orderWord_valid oe k, invWord_valid ie k, fun p hp => ?_, fun m hm => ?_⟩
  · rw [orderWord_of_some hp]
    exact ⟨(validOrderWord_fields p).2, permImages_perm p⟩
  · rw [invWord_of_some hm]
    exact (validInvWord_bits m.v0 m.v1 m.v2).2

/-- Settles O32: the header's elements, and the three of each triple of the body. -/
theorem packetLayout : Obligations.PacketLayout := by
  intro oe ie fixed rolling long p hf hr h
  obtain ⟨order, inv, horder, hinv, rfl⟩ := encodeHalf_eq_ok h
  have hlen := fun j => length_makeParts hf hr j
  refine ⟨length_emitPacket hr .., ?_, rfl, rfl, fun k hk => emitPacket_getElem?_rolling hr long _ inv hk,
    order, inv, horder, hinv, fun i hi => ⟨?_, ?_, ?_⟩⟩
  · rw [length_emitPacket hr]
    cases long <;> rfl
  · rw [← getD_xor_eq_map (by rwa [hlen]) inv.v0]
    exact emitPacket_getElem?_body hr _ inv (j := 0) hi (by decide)
  · rw [← getD_xor_eq_map (by rwa [hlen]) inv.v1]
    exact emitPacket_getElem?_body hr _ inv (j := 1) hi (by decide)
  · rw [← getD_xor_eq_map (by rwa [hlen]) inv.v2]
    exact emitPacket_getElem?_body hr _ inv (j := 2) hi (by decide)

/-- Settles O36: the burst is the message's Manchester symbols, one after the other. -/
theorem burstLayout : Obligations.BurstLayout := by
  intro index p hp
  refine ⟨_, burst_eq_flatMap index hp, ?_, fun m hm => ?_⟩
  · rw [List.length_flatMap]
    simp [length_manchesterPair, length_burstMessage, Nat.mul_comm]
  · rw [← burstMessage_getElem? index p m]
    exact flatMap_manchesterPair_getElem? (by rwa [length_burstMessage])

/-- Settles O39: in range the command completes with EncodeV2's packets, out of range it raises the error. -/
theorem encodeV2Command : Obligations.EncodeV2Command := by
  refine fun s => ⟨fun hs hr => ?_, fun hr => ?_⟩
  · obtain ⟨-, -, p0, p1, -, -, -, hok, ⟨hlen0, -⟩, ⟨hlen1, -⟩⟩ :=
      encodeV2_in_range Config.orderExt Config.invExt s.fixedHi s.fixedLo hr
    have hlen : p1.length = p0.length := hlen1.trans hlen0.symm
    have hfit : p0.length ≤ Config.outCap := hlen0.trans_le (by cases isLong s.fixedHi s.fixedLo <;> decide)
    exact ⟨p0, p1, _, hok, by rw [exec_encodeV2, hok], hlen, finishPair_completed hs hlen hfit⟩
  · rw [exec_encodeV2, encodeV2_out_of_range _ _ _ _ hr]
    rfl

/-- Settles O40: in range the command completes with the bursts of EncodeV2's packets. -/
theorem encodeV2BurstsCommand : Obligations.EncodeV2BurstsCommand := by
  refine fun s => ⟨fun hs hr => ?_, fun hr => ?_⟩
  · obtain ⟨-, -, p0, p1, -, -, -, hok, hbits0, hbits1⟩ :=
      encodeV2_in_range Config.orderExt Config.invExt s.fixedHi s.fixedLo hr
    obtain ⟨b0, b1, hb0, hb1, hbursts, ⟨hlen0, -⟩, ⟨hlen1, -⟩⟩ := encodeV2Bursts_in_range _ _ _ _ hok hbits0 hbits1
    have hlen : b1.length = b0.length := hlen1.trans hlen0.symm
    have hfit : b0.length ≤ Config.outCap := hlen0.trans_le (by cases isLong s.fixedHi s.fixedLo <;> decide)
    exact ⟨p0, p1, b0, b1, _, hok, hb0, hb1, by rw [exec_encodeV2Bursts, hbursts], by rw [hlen0, hbits0.1], hlen,
      finishPair_completed hs hlen hfit⟩
  · rw [exec_encodeV2Bursts, encodeV2Bursts_out_of_range _ _ _ _ hr]
    rfl

/-- Settles O47: a Manchester command's vector ends before OUT1. -/
theorem manchesterCommandsLeaveOutputOneAlone : Obligations.ManchesterCommandsLeaveOutputOneAlone := by
  rintro i s t (rfl | rfl) h
  · rw [exec_manchesterEncode] at h
    cases h
    exact (manchesterEncode_result s).leaves_out1 s
  · rw [exec_manchesterDecode] at h
    cases h
    exact (manchesterDecode_result s).leaves_out1 s

/-- Settles O53: the run of LOADVEC, and the read-back and frame of its vector. -/
theorem loadvecStoresTheVector : Obligations.LoadvecStoresTheVector := by
  intro s v rest hs hv hp
  refine ⟨_, (performs_hostLOADVEC hv s).run hp, ?_, toNat_storedLength (by simp only [Config.outCap]; omega), rfl,
    fun a => Memory.read_writeVec_outside v _⟩
  exact Memory.readVec_writeVec v hs (Nat.le_refl _) (by simp only [inBase, windowEnd]; omega)

/-- Settles O54: the run of COPYOUT0, and the read-back and frame of the vector it copies. -/
theorem copyoutMovesTheOutputToTheInput : Obligations.CopyoutMovesTheOutputToTheInput := by
  intro s rest hs hn hp
  have hlen := Memory.length_readVec s.mem out0Base s.out0Len.toNat
  refine ⟨_, (performs_hostCOPYOUT0 s hn).run hp, ?_, rfl, ?_, rfl, fun a ha => ?_⟩
  · have hback := Memory.readVec_writeVec (s.mem.readVec out0Base s.out0Len.toNat) hs (Nat.le_refl inBase)
      (by simp only [hlen, inBase, windowEnd]; omega)
    rwa [hlen] at hback
  · exact List.append_assoc ..
  · exact Memory.read_writeVec_outside _ _ (by rwa [hlen])

end Sys2Proof.Proofs

/-! PROOFS. Slices of an MSB-first rendering, and the splitter's halves as renderings. -/

namespace Sys2Proof.Machine

/-- A rendering sees only the low n bits of its number. -/
theorem msbBits_mod (x n : Nat) : msbBits (x % 2 ^ n) n = msbBits x n := by
  refine List.ext_getElem (by simp) fun i hi _ => ?_
  rw [length_msbBits] at hi
  have hbit : n - 1 - i < n := by omega
  simp only [msbBits, List.getElem_map, List.getElem_range, Nat.testBit_mod_two_pow, hbit, decide_true, Bool.true_and]

/-- The m most significant bits of a rendering are the rendering of the number without its n low bits. -/
theorem take_msbBits (x m n : Nat) : (msbBits x (m + n)).take m = msbBits (x / 2 ^ n) m := by
  refine List.ext_getElem (by simp) fun i _ hi => ?_
  rw [length_msbBits] at hi
  simp only [msbBits, List.getElem_take, List.getElem_map, List.getElem_range, Nat.testBit_div_two_pow]
  rw [show m + n - 1 - i = m - 1 - i + n by omega]

/-- A rendering is the rendering of its high bits followed by that of its low bits. -/
theorem msbBits_add (x m n : Nat) : msbBits x (m + n) = msbBits (x / 2 ^ n) m ++ msbBits x n := by
  rw [← take_msbBits, ← drop_msbBits x m n, List.take_append_drop]

/-- Elements a to a + n of a rendering, with b elements after them, render the bits from bit b on (R7, R8). -/
theorem slice_msbBits (x a n b : Nat) : slice (msbBits x (a + (n + b))) a (a + n) = msbBits (x / 2 ^ b) n := by
  rw [slice, drop_msbBits, Nat.add_sub_cancel_left, take_msbBits]

/-- The last n elements of a rendering render the low n bits (R7, R8). -/
theorem slice_msbBits_to_end (x a n : Nat) : slice (msbBits x (a + n)) a (a + n) = msbBits x n := by
  rw [slice_to_end (length_msbBits x (a + n)).le, drop_msbBits]

/-- The 72 elements that the long split cuts are the identifier's bits (R76, R92). -/
theorem msbBits_identifier (hi : BitVec 8) (lo : BitVec 64) :
    msbBits hi.toNat 8 ++ msbBits lo.toNat 64 = msbBits (identifier hi lo) 72 := by
  have hhigh : identifier hi lo / 2 ^ 64 = hi.toNat := by rw [identifier]; omega
  have hlow : identifier hi lo % 2 ^ 64 = lo.toNat := by rw [identifier]; omega
  rw [msbBits_add _ 8 64, hhigh, ← msbBits_mod (identifier hi lo) 64, hlow]

/-- The short halves render bits 39..20 and 19..0 of FIXED_LO (R91). -/
theorem splitShort_eq (lo : BitVec 64) :
    splitShort lo = (msbBits (lo.toNat / 2 ^ 20 % 2 ^ 20) 20, msbBits (lo.toNat % 2 ^ 20) 20) := by
  rw [msbBits_mod, msbBits_mod]
  exact Prod.ext (slice_msbBits lo.toNat 24 20 20) (slice_msbBits_to_end lo.toNat 44 20)

/-- The long halves render bits 71..36 and 35..0 of the identifier (R92). -/
theorem splitLong_eq (hi : BitVec 8) (lo : BitVec 64) :
    splitLong hi lo = (msbBits (identifier hi lo / 2 ^ 36) 36, msbBits (identifier hi lo % 2 ^ 36) 36) := by
  rw [splitLong, msbBits_identifier, msbBits_mod]
  exact Prod.ext (slice_msbBits _ 0 36 36) (slice_msbBits_to_end _ 36 36)

/-- In short mode FIXED_LO is below 2^40 (R90). -/
theorem fixedLo_lt_of_short {hi : BitVec 8} {lo : BitVec 64} (h : isLong hi lo = false) : lo.toNat < 2 ^ 40 := by
  have hshort := (isLong_iff hi lo).not.mp (Bool.eq_false_iff.mp h)
  rw [identifier] at hshort
  omega

end Sys2Proof.Machine

/-! PROOFS. The statements about the splitter's halves, settled. -/

namespace Sys2Proof.Proofs

open Sys2Proof.Machine

/-- Settles O19: the short mode's bound on FIXED_LO, and the two slices of its rendering. -/
theorem shortSplitTakesTheLow40Bits : Obligations.ShortSplitTakesTheLow40Bits := by
  refine fun hi lo h => ⟨Nat.div_eq_of_lt (fixedLo_lt_of_short h), ?_⟩
  simp only [fixedSplit, h, Bool.false_eq_true, if_false, splitShort_eq]

/-- Settles O20: the two slices of the identifier's rendering. -/
theorem longSplitTakesAll72Bits : Obligations.LongSplitTakesAll72Bits := by
  intro hi lo h
  simp only [fixedSplit, h, if_true, splitLong_eq]

end Sys2Proof.Proofs

/-! PROOFS. The transformer's reversal, digits and half assembly: bits, base-3 places, piece order, injectivity. -/

namespace Sys2Proof.Machine

/-- A bit of a disjunction accumulated over a list: of the start, or of one of the terms. -/
theorem testBit_foldl_or (f : Nat → Nat) (l : List Nat) (x i : Nat) :
    (l.foldl (fun acc b => acc ||| f b) x).testBit i = (x.testBit i || l.any fun b => (f b).testBit i) := by
  induction l generalizing x with
  | nil => simp
  | cons b l ih => rw [List.foldl_cons, ih, Nat.testBit_or, List.any_cons, Bool.or_assoc]

/-- Bit i of a shifted bit: the bit itself at the place it is shifted to, and false elsewhere. -/
theorem testBit_toNat_shiftLeft (b : Bool) (n i : Nat) :
    (b.toNat <<< n).testBit i = (decide (i = n) && b) := by
  rw [Nat.testBit_shiftLeft, Nat.testBit_bool_toNat, ← Bool.and_assoc, ← Bool.decide_and]
  exact congrArg (· && b) (decide_eq_decide.mpr (by omega))

/-- Bit i of the reversed code is bit 27 - i of the code, and there is none above bit 27 (R101). -/
theorem testBit_reverse28 (r i : Nat) : (reverse28 r).testBit i = (decide (i < 28) && r.testBit (27 - i)) := by
  rw [reverse28, testBit_foldl_or, Nat.zero_testBit, Bool.false_or, Bool.eq_iff_iff]
  simp only [testBit_toNat_shiftLeft, List.any_eq_true, List.mem_range, Bool.and_eq_true, decide_eq_true_eq]
  constructor
  · rintro ⟨b, hb, rfl, hbit⟩
    exact ⟨by omega, by rwa [Nat.sub_sub_self (Nat.le_of_lt_succ hb)]⟩
  · rintro ⟨hi, hbit⟩
    exact ⟨27 - i, by omega, by omega, hbit⟩

theorem reverse28_lt (r : Nat) : reverse28 r < 2 ^ 28 :=
  Nat.lt_pow_two_of_testBit _ fun i hi => by rw [testBit_reverse28, decide_eq_false (Nat.not_lt.mpr hi), Bool.false_and]

/-- Bit b of the code becomes bit 27 - b of the reversed code (R101). -/
theorem testBit_reverse28_sub (r : Nat) {b : Nat} (hb : b < 28) :
    (reverse28 r).testBit (27 - b) = r.testBit b := by
  rw [testBit_reverse28, decide_eq_true (by omega), Bool.true_and, Nat.sub_sub_self (Nat.le_of_lt_succ hb)]

/-- Reversing twice gives the code back. -/
theorem reverse28_reverse28 {r : Nat} (h : r < 2 ^ 28) : reverse28 (reverse28 r) = r := by
  refine Nat.eq_of_testBit_eq fun i => ?_
  rw [testBit_reverse28]
  by_cases hi : i < 28
  · rw [testBit_reverse28_sub r hi, decide_eq_true hi, Bool.true_and]
  · have hlt : r < 2 ^ i := h.trans_le (Nat.pow_le_pow_right (by decide) (Nat.le_of_not_lt hi))
    rw [decide_eq_false hi, Bool.false_and, Nat.testBit_lt_two_pow hlt]

/-- Digit k of the conversion is the base-3 digit of place k (R102). -/
theorem val_getD_tritDigits (v : Nat) {n k : Nat} (hk : k < n) :
    ((tritDigits n v).getD k 0).val = v / 3 ^ k % 3 := by
  induction n generalizing v k with
  | zero => exact absurd hk (Nat.not_lt_zero k)
  | succ n ih =>
    cases k with
    | zero => simp [tritDigits]
    | succ k =>
      rw [tritDigits, List.getD_cons_succ, ih _ (Nat.lt_of_succ_lt_succ hk), Nat.div_div_eq_div_mul, Nat.pow_succ']

theorem val_getD_trits (rev : Nat) {k : Nat} (hk : k < 18) : ((trits rev).getD k 0).val = rev / 3 ^ k % 3 :=
  val_getD_tritDigits rev hk

/-- The first n base-3 digits, weighted by their places, sum to the number's residue below 3^n. -/
theorem sum_digits_mul_pow (v n : Nat) : ((List.range n).map fun k => v / 3 ^ k % 3 * 3 ^ k).sum = v % 3 ^ n := by
  induction n with
  | zero => simp [Nat.mod_one]
  | succ n ih => rw [List.range_succ, List.map_append, List.sum_append, ih, Nat.mod_pow_succ]; simp [Nat.mul_comm]

/-- A reversed code has no digit beyond the 18 (R102). -/
theorem lt_three_pow_of_lt {rev : Nat} (h : rev < 2 ^ 28) : rev < 3 ^ 18 := h.trans (by decide)

/-- A reversed code is the sum of its trits, weighted by their places (R102). -/
theorem sum_trits {rev : Nat} (h : rev < 2 ^ 28) :
    ((List.range 18).map fun k => ((trits rev).getD k 0).val * 3 ^ k).sum = rev := by
  rw [List.map_congr_left fun k hk => by rw [val_getD_trits rev (List.mem_range.mp hk)], sum_digits_mul_pow,
    Nat.mod_eq_of_lt (lt_three_pow_of_lt h)]

/-- The trits determine the reversed code. -/
theorem eq_of_trits_eq {x y : Nat} (hx : x < 2 ^ 28) (hy : y < 2 ^ 28)
    (h : ∀ k, k < 18 → (trits x).getD k 0 = (trits y).getD k 0) : x = y := by
  rw [← sum_trits hx, ← sum_trits hy, List.map_congr_left fun k hk => by rw [h k (List.mem_range.mp hk)]]

/-- A slice lists the elements of its places. -/
theorem slice_eq_map_getD {α : Type} {v : List α} (a : Nat) {b : Nat} (d : α) (hb : b ≤ v.length) :
    slice v a b = (List.range' a (b - a)).map fun k => v.getD k d := by
  refine List.ext_getElem (by simp; omega) fun i hi _ => ?_
  rw [length_slice] at hi
  simp only [slice, List.getElem_take, List.getElem_drop, List.getElem_map, List.getElem_range', Nat.one_mul]
  rw [List.getD_eq_getElem _ _ (by omega)]

/-- A piece is the symbols of the trits of its places, the highest place first (R104). -/
theorem piece_eq_flatMap {t : List Trit} (a : Nat) {b : Nat} (hb : b ≤ t.length) :
    piece t a b = (List.range' a (b - a)).reverse.flatMap fun k => sym (t.getD k 0) := by
  rw [piece, slice_eq_map_getD a 0 hb, ← List.map_reverse, List.flatMap_map]

/-- The places of the trits in halfA, in the order of R104. -/
def halfAPlaces : List Nat := [3, 2, 1, 0, 11, 10, 9, 8, 16]

/-- The places of the trits in halfB, in the order of R104. -/
def halfBPlaces : List Nat := [7, 6, 5, 4, 15, 14, 13, 12, 17]

theorem halfA_eq_places {t : List Trit} (ht : t.length = 18) :
    halfA t = halfAPlaces.flatMap fun k => sym (t.getD k 0) := by
  rw [halfA, piece_eq_flatMap 0 (by omega), piece_eq_flatMap 8 (by omega), piece_eq_flatMap 16 (by omega),
    ← List.flatMap_append, ← List.flatMap_append]
  rfl

theorem halfB_eq_places {t : List Trit} (ht : t.length = 18) :
    halfB t = halfBPlaces.flatMap fun k => sym (t.getD k 0) := by
  rw [halfB, piece_eq_flatMap 4 (by omega), piece_eq_flatMap 12 (by omega), piece_eq_flatMap 17 (by omega),
    ← List.flatMap_append, ← List.flatMap_append]
  rfl

theorem mem_halfAPlaces_or_mem_halfBPlaces : ∀ k, k < 18 → k ∈ halfAPlaces ∨ k ∈ halfBPlaces := by decide

theorem sym_injective : ∀ x y : Trit, sym x = sym y → x = y := by decide

/-- Symbols one after the other, over the same places, determine the trit of each place. -/
theorem eq_of_flatMap_sym_eq {l : List Nat} {f g : Nat → Trit}
    (h : (l.flatMap fun k => sym (f k)) = l.flatMap fun k => sym (g k)) : ∀ k ∈ l, f k = g k := by
  induction l with
  | nil => simp
  | cons a l ih =>
    simp only [List.flatMap_cons] at h
    obtain ⟨hhead, htail⟩ := List.append_inj h rfl
    exact List.forall_mem_cons.mpr ⟨sym_injective _ _ hhead, ih htail⟩

/-- The two halves determine every trit (R104). -/
theorem getD_eq_of_halves_eq {t u : List Trit} (ht : t.length = 18) (hu : u.length = 18) (hA : halfA t = halfA u)
    (hB : halfB t = halfB u) {k : Nat} (hk : k < 18) : t.getD k 0 = u.getD k 0 := by
  rw [halfA_eq_places ht, halfA_eq_places hu] at hA
  rw [halfB_eq_places ht, halfB_eq_places hu] at hB
  obtain hmem | hmem := mem_halfAPlaces_or_mem_halfBPlaces k hk
  · exact eq_of_flatMap_sym_eq hA k hmem
  · exact eq_of_flatMap_sym_eq hB k hmem

/-- The transformer answers halves only for a code in range (R100). -/
theorem lt_of_rollingTransform_ok {r : BitVec 32} {h : BitVector × BitVector} (hok : rollingTransform r = .ok h) :
    r.toNat < 2 ^ 28 := by
  by_contra hr
  rw [rollingTransform_out_of_range (Nat.le_of_not_lt hr)] at hok
  cases hok

end Sys2Proof.Machine

/-! PROOFS. The statements about the rolling transform, settled. -/

namespace Sys2Proof.Proofs

open Sys2Proof.Machine

/-- Settles O23: every bit of the reversal. -/
theorem bitReversalExchangesBitsBAnd27MinusB : Obligations.BitReversalExchangesBitsBAnd27MinusB :=
  fun r _ => ⟨reverse28_lt r, fun _ hb => testBit_reverse28_sub r hb⟩

/-- Settles O24: the digits by induction on their number, their sum, and 2^28 < 3^18. -/
theorem tritsAreTheBaseThreeDigits : Obligations.TritsAreTheBaseThreeDigits :=
  fun rev h => ⟨length_trits rev, fun _ hk => val_getD_trits rev hk, (sum_trits h).symm,
    Nat.div_eq_of_lt (lt_three_pow_of_lt h)⟩

/-- Settles O25: the places of the three pieces of each half, and the symbol of each trit. -/
theorem halvesTakeTheTritsInPieceOrder : Obligations.HalvesTakeTheTritsInPieceOrder := by
  intro r hr
  rw [rollingTransform_in_range hr, halfA_eq_places (length_trits _), halfB_eq_places (length_trits _)]
  have hsym : ∀ t : Trit, sym t = match t with
      | 0 => [0x00#8, 0x00#8]
      | 1 => [0x00#8, 0x01#8]
      | 2 => [0x01#8, 0x00#8] := by decide
  exact congrArg Except.ok (Prod.ext (List.flatMap_congr fun _ _ => hsym _) (List.flatMap_congr fun _ _ => hsym _))

/-- Settles O27: the halves determine the trits, the trits the reversed code, and that the code. -/
theorem rollingTransformLosesNoBit : Obligations.RollingTransformLosesNoBit := by
  intro r r' ⟨hA, hB⟩ hr hr'
  obtain ⟨hAr, hBr⟩ := halves_of_rollingTransform hr
  obtain ⟨hAr', hBr'⟩ := halves_of_rollingTransform hr'
  have hrev : reverse28 r.toNat = reverse28 r'.toNat := eq_of_trits_eq (reverse28_lt _) (reverse28_lt _) fun _ hk =>
    getD_eq_of_halves_eq (length_trits _) (length_trits _) (hAr.symm.trans hAr') (hBr.symm.trans hBr') hk
  refine BitVec.eq_of_toNat_eq ?_
  rw [← reverse28_reverse28 (lt_of_rollingTransform_ok hr), hrev,
    reverse28_reverse28 (lt_of_rollingTransform_ok hr')]

/-- Settles O22: the two branches of the range check. -/
theorem rollingRangeCheckComesFirst : Obligations.RollingRangeCheckComesFirst :=
  fun _ => ⟨rollingTransform_out_of_range, fun h => ⟨_, _, rollingTransform_in_range h⟩⟩

end Sys2Proof.Proofs

/-! PROOFS. The missing keys of the tables, and the elements of the three parts (R115, R116, R120). -/

namespace Sys2Proof.Machine

theorem romOrder_missing (ext : OrderExt) {k : Nat} (h : k ∉ validKeys) : romOrder ext k = none := by
  unfold romOrder
  split
  case h_10 => rfl
  all_goals exact absurd (by decide) h

theorem romInv_missing (ext : InvExt) {k : Nat} (h : k ∉ validKeys) : romInv ext k = none := by
  unfold romInv
  split
  case h_10 => rfl
  all_goals exact absurd (by decide) h

theorem encodeHalf_missing_order (oe : OrderExt) (ie : InvExt) (fixed : BitVector) {rolling : BitVector} (long : Bool)
    (h : orderKey rolling ∉ validKeys) : encodeHalf oe ie fixed rolling long = .error .unknownOrderIndicator := by
  simp only [encodeHalf, romOrder_missing oe h]

theorem encodeHalf_missing_inversion (oe : OrderExt) (ie : InvExt) (fixed : BitVector) {rolling : BitVector}
    (long : Bool) (horder : orderKey rolling ∈ validKeys) (hinv : inversionKey rolling ∉ validKeys) :
    encodeHalf oe ie fixed rolling long = .error .unknownInversionIndicator := by
  obtain ⟨order, hsome⟩ := romOrder_validKeys oe horder
  simp only [encodeHalf, hsome, romInv_missing ie hinv]

theorem slice_getElem? {α : Type} (v : List α) {a b k : Nat} (hk : k < b - a) : (slice v a b)[k]? = v[a + k]? := by
  rw [slice, List.getElem?_take_of_lt hk, List.getElem?_drop]

/-- Setting the places a to a + n - 1 in order changes exactly those, each to its own value. -/
theorem foldl_set_getElem? {α : Type} (f : Nat → α) (a n : Nat) (v : List α) {k : Nat} (hk : k < v.length) :
    ((List.range' a n).foldl (fun v m => v.set m (f m)) v)[k]? =
      if a ≤ k ∧ k < a + n then some (f k) else v[k]? := by
  induction n generalizing a v with
  | zero => exact (if_neg (by omega)).symm
  | succ n ih =>
    rw [List.range'_succ, List.foldl_cons, ih _ _ (by rwa [List.length_set])]
    obtain rfl | hne := eq_or_ne a k
    · rw [if_neg (by omega), if_pos (by omega), List.getElem?_set_self hk]
    · rw [List.getElem?_set_ne hne]
      exact if_congr (by omega) rfl rfl

theorem makeParts_part0_getElem? (fixed rolling : BitVector) {long : Bool} {k : Nat} (hk : k < partLength long) :
    (makeParts fixed rolling long).part0[k]? = fixed[k]? :=
  (slice_getElem? fixed hk).trans (by rw [Nat.zero_add])

theorem makeParts_part1_getElem? (fixed rolling : BitVector) {long : Bool} {k : Nat} (hk : k < partLength long) :
    (makeParts fixed rolling long).part1[k]? = fixed[partLength long + k]? :=
  slice_getElem? fixed (by omega)

section
variable (fixed : BitVector) {rolling : BitVector} (hr : rolling.length = 18) {k : Nat}

include hr

/-- Before the overwrite, the first ten elements of part 2 are rolling[8..18). -/
theorem paddedPart_getElem? {p : Nat} (hp : k < p) (hk : k < 10) : (paddedPart rolling p)[k]? = rolling[8 + k]? := by
  rw [paddedPart, List.getElem?_append_left (by rw [length_slice]; omega), slice_getElem? _ (by omega)]

theorem makeParts_part2_short_getElem? (hk : k < 10) :
    (makeParts fixed rolling false).part2[k]? = rolling[8 + k]? :=
  paddedPart_getElem? hr hk hk

/-- In long mode the overwrite puts rolling[0..8) after rolling[8..18). -/
theorem makeParts_part2_long_getElem? (hk : k < 18) :
    (makeParts fixed rolling true).part2[k]? = if k < 10 then rolling[8 + k]? else rolling[k - 10]? := by
  have hset : (overwritePart rolling (paddedPart rolling 18) 18)[k]? =
      if 10 ≤ k ∧ k < 10 + 8 then some (rolling.getD (k - 10) 0x00#8) else (paddedPart rolling 18)[k]? :=
    foldl_set_getElem? (fun m => rolling.getD (m - 10) 0x00#8) 10 8 _ (by rwa [length_paddedPart hr])
  refine hset.trans ?_
  by_cases hlow : k < 10
  · rw [if_neg (by omega), if_pos hlow, paddedPart_getElem? hr hk hlow]
  · have hin : k - 10 < rolling.length := by omega
    rw [if_pos (by omega), if_neg hlow, List.getD_eq_getElem _ _ hin, List.getElem?_eq_getElem hin]

end

/-- The length of a packet in the splitter's mode, by the size of the identifier (R79, R90). -/
theorem packetLength_isLong (hi : BitVec 8) (lo : BitVec 64) :
    packetLength (isLong hi lo) = if identifier hi lo < 2 ^ 40 then 40 else 64 := by
  have hmode := isLong_iff hi lo
  cases hlong : isLong hi lo with
  | false => rw [if_pos (by simpa [hlong] using hmode)]; rfl
  | true => rw [if_neg (Nat.not_lt.mpr (hmode.mp hlong))]; rfl

end Sys2Proof.Machine

/-! PROOFS. The statements about the packet assembler and EncodeV2's errors, settled. -/

namespace Sys2Proof.Proofs

open Sys2Proof.Machine

/-- Settles O31: the lengths of the parts, and the elements of each part in each mode. -/
theorem partsOfAPacket : Obligations.PartsOfAPacket := by
  refine fun fixed rolling hr => ⟨fun hf => ⟨?_, fun k hk => ?_⟩, fun hf => ⟨?_, fun k hk => ?_⟩⟩
  · have hlen := length_makeParts (long := false) hf hr
    exact ⟨hlen 0, hlen 1, hlen 2⟩
  · exact ⟨makeParts_part0_getElem? fixed rolling hk, makeParts_part1_getElem? fixed rolling hk,
      makeParts_part2_short_getElem? fixed hr hk⟩
  · have hlen := length_makeParts (long := true) hf hr
    exact ⟨hlen 0, hlen 1, hlen 2⟩
  · exact ⟨makeParts_part0_getElem? fixed rolling hk, makeParts_part1_getElem? fixed rolling hk,
      makeParts_part2_long_getElem? fixed hr hk⟩

/-- Settles O33: out of range the error, in range the assembler's two packets, of the length of the mode. -/
theorem onlyTheRangeErrorCanOccur : Obligations.OnlyTheRangeErrorCanOccur := by
  refine fun oe ie hi lo r => ⟨encodeV2_out_of_range oe ie hi lo, fun hr => ?_⟩
  obtain ⟨hA, hB, p0, p1, hroll, hp0, hp1, hok, ⟨hlen0, hbits0⟩, hlen1, hbits1⟩ := encodeV2_in_range oe ie hi lo hr
  exact ⟨hA, hB, p0, p1, hroll, hp0, hp1, hok, hlen0.trans (packetLength_isLong hi lo), hlen1.trans hlen0.symm,
    by rw [allBits_append, hbits0, hbits1]; rfl⟩

/-- Settles O28: each listed entry by the table's own row, and no row for any other key. -/
theorem keyedTablesHoldExactlyTheNineEntries : Obligations.KeyedTablesHoldExactlyTheNineEntries :=
  fun oe ie => ⟨⟨rfl, rfl, rfl, rfl, rfl, rfl, rfl, rfl, rfl⟩, ⟨rfl, rfl, rfl, rfl, rfl, rfl, rfl, rfl, rfl⟩,
    fun _ hk => ⟨romOrder_missing oe hk, romInv_missing ie hk⟩⟩

/-- Settles O30: the order lookup's error, and behind a valid order key the inversion lookup's. -/
theorem missingKeysFailClosed : Obligations.MissingKeysFailClosed :=
  fun oe ie fixed _ long => ⟨encodeHalf_missing_order oe ie fixed long, encodeHalf_missing_inversion oe ie fixed long⟩

end Sys2Proof.Proofs

/-! PROOFS. EncodeV2 by its two packets, decoding a burst, and the lengths that an ENCODE command leaves. -/

namespace Sys2Proof.Machine

/-- EncodeV2 answers exactly the assembler's packets of the two halves of each source (R135). -/
theorem encodeV2_eq_ok_iff {oe : OrderExt} {ie : InvExt} {hi : BitVec 8} {lo : BitVec 64} {r : BitVec 32}
    {hA hB p0 p1 : BitVector} (hroll : rollingTransform r = .ok (hA, hB)) :
    encodeV2 oe ie hi lo r = .ok (p0, p1) ↔
      encodeHalf oe ie (fixedSplit hi lo).half1 hA (fixedSplit hi lo).long = .ok p0 ∧
      encodeHalf oe ie (fixedSplit hi lo).half2 hB (fixedSplit hi lo).long = .ok p1 := by
  constructor
  · intro hok
    obtain ⟨_, _, _, _, hroll', hp0, hp1, hok', -⟩ := encodeV2_in_range oe ie hi lo (lt_of_rollingTransform_ok hroll)
    cases hroll.symm.trans hroll'
    cases hok.symm.trans hok'
    exact ⟨hp0, hp1⟩
  · rintro ⟨hp0, hp1⟩
    simp only [encodeV2, hroll, atPosition, Except.bind, hp0, hp1]

/-- The decoder's loop reads a bit's symbol as that bit, and goes on behind it (R81, R151). -/
theorem manchesterDecodeFrom_pair_append (pos : Nat) {x : Byte} (hx : isBit x = true) (w : BitVector) :
    manchesterDecodeFrom pos (manchesterPair x ++ w) = (manchesterDecodeFrom (pos + 2) w).map (x :: ·) := by
  obtain rfl | rfl := (isBit_iff x).mp hx
  · rfl
  · rfl

/-- The decoder's loop reads the symbols of a vector of bits as the vector. -/
theorem manchesterDecodeFrom_flatMap_pair (pos : Nat) {v : BitVector} (hv : allBits v = true) :
    manchesterDecodeFrom pos (v.flatMap manchesterPair) = .ok v := by
  induction v generalizing pos with
  | nil => rfl
  | cons x v ih =>
    rw [allBits_cons, Bool.and_eq_true] at hv
    obtain ⟨hx, hrest⟩ := hv
    rw [List.flatMap_cons, manchesterDecodeFrom_pair_append pos hx, ih (pos + 2) hrest]
    rfl

/-- The symbols of a vector are even in number, so the decoder reaches its loop. -/
theorem manchesterDecode_flatMap_pair {v : BitVector} (hv : allBits v = true) :
    manchesterDecode (v.flatMap manchesterPair) = .ok v := by
  have heven : (v.flatMap manchesterPair).length % 2 ≠ 1 := by
    simp [List.length_flatMap, length_manchesterPair]
  rw [manchesterDecode, if_neg heven, manchesterDecodeFrom_flatMap_pair 0 hv]

/-- A burst decodes to its message (R154). -/
theorem manchesterDecode_of_burst {index : Bool} {p b : BitVector} (hp : allBits p = true)
    (hb : burst index p = .ok b) : manchesterDecode b = .ok (burstMessage index p) := by
  cases (burst_eq_flatMap index hp).symm.trans hb
  exact manchesterDecode_flatMap_pair (by simp [burstMessage, syncRom_bits.2, hp])

/-- When completing a command with two vectors of n bits reports no error, both length registers hold n. -/
theorem lengths_of_finishPair (s : State) {n : Nat} (hn : n ≤ Config.outCap) {err : CommandError → Prop}
    {r : Except CommandError (BitVector × BitVector)} (hr : Satisfies (fun p => IsBits n p.1 ∧ IsBits n p.2) err r)
    (hcode : (s.finishPair r).errCode = 0x00#8) :
    (s.finishPair r).out0Len = (s.finishPair r).out1Len ∧ (s.finishPair r).out0Len.toNat = n := by
  match r, hr with
  | .error e, _ => exact absurd hcode e.kind.code_ne_zero
  | .ok (v0, v1), ⟨⟨hlen, _⟩, _⟩ =>
    subst hlen
    exact ⟨rfl, toNat_storedLength hn⟩

/-- The length of a packet in the splitter's mode, by the two identifier registers (R139). -/
theorem packetLength_of_registers (hi : BitVec 8) (lo : BitVec 64) :
    packetLength (isLong hi lo) = if hi.toNat = 0 ∧ lo.toNat < 2 ^ 40 then 40 else 64 :=
  (packetLength_isLong hi lo).trans (if_congr (by unfold identifier; omega) rfl rfl)

theorem packetLength_le (long : Bool) : packetLength long ≤ 64 := by cases long <;> decide

end Sys2Proof.Machine

/-! PROOFS. The statements about EncodeV2's packets, the decoded bursts and the output lengths, settled. -/

namespace Sys2Proof.Proofs

open Sys2Proof.Machine

/-- Settles O34: each packet is the assembler's answer on one half of each source and the mode. -/
theorem packetHalvesAreIndependent : Obligations.PacketHalvesAreIndependent := by
  intro oe ie hi hi' lo lo' r r' hA hB hA' hB' p0 p1 p0' p1' hroll hroll' hok hok' hlong
  obtain ⟨hp0, hp1⟩ := (encodeV2_eq_ok_iff hroll).mp hok
  obtain ⟨hp0', hp1'⟩ := (encodeV2_eq_ok_iff hroll').mp hok'
  refine ⟨fun hfixed hrolling => ?_, fun hfixed hrolling => ?_⟩
  · rw [hfixed, hrolling, hlong, hp0'] at hp0
    exact (Except.ok.inj hp0).symm
  · rw [hfixed, hrolling, hlong, hp1'] at hp1
    exact (Except.ok.inj hp1).symm

/-- Settles O38: each burst is the symbols of its message, and decodes to it. -/
theorem burstsDecodeToTheirPackets : Obligations.BurstsDecodeToTheirPackets := by
  intro oe ie hi lo r hr
  obtain ⟨-, -, p0, p1, -, -, -, hok, hbits0, hbits1⟩ := encodeV2_in_range oe ie hi lo hr
  obtain ⟨b0, b1, hb0, hb1, hbursts, -⟩ := encodeV2Bursts_in_range oe ie hi lo hok hbits0 hbits1
  exact ⟨p0, p1, b0, b1, hok, hbursts, manchesterDecode_of_burst hbits0.2 hb0, manchesterDecode_of_burst hbits1.2 hb1⟩

/-- Settles O41: without an error the lengths are those of the packets or the bursts in the splitter's mode. -/
theorem encodeOutputLengths : Obligations.EncodeOutputLengths := by
  intro s t
  have hfit := packetLength_le (isLong s.fixedHi s.fixedLo)
  rw [← packetLength_of_registers]
  refine ⟨fun h hcode => ?_, fun h hcode => ?_⟩
  · rw [exec_encodeV2] at h
    cases h
    exact lengths_of_finishPair s (by unfold Config.outCap; omega) (encodeV2_satisfies ..) hcode
  · rw [exec_encodeV2Bursts] at h
    cases h
    exact lengths_of_finishPair s (by unfold Config.outCap; omega) (encodeV2Bursts_satisfies ..) hcode

/-- Settles O35: the transformer's halves of each rolling code, and the assembler's packet of each pair of halves. The
four keys are derived ones, so no OPEN entry is looked up. -/
theorem knownPacketVectorsAreReproduced : Obligations.KnownPacketVectorsAreReproduced := by
  intro oe ie
  have hshort : rollingTransform 240124710#32 =
      .ok (msbBits 0b010001001001000010 18, msbBits 0b100101100101000000 18) := rfl
  have hlong : rollingTransform 240129675#32 =
      .ok (msbBits 0b000100000001011010 18, msbBits 0b001000010000101001 18) := rfl
  exact ⟨(encodeV2_eq_ok_iff hshort).mpr ⟨rfl, rfl⟩, (encodeV2_eq_ok_iff hlong).mpr ⟨rfl, rfl⟩⟩

end Sys2Proof.Proofs

/-! PROOFS. The Manchester coder and decoder on good elements and on the first bad one behind them (R150, R151). -/

namespace Sys2Proof.Machine

/-- Behind bits the encoder's loop fails at the first element that is no bit, at that element's index. -/
theorem manchesterEncodeFrom_invalidBit (m : Nat) {v : BitVector} (hv : allBits v = true) {x : Byte}
    (h0 : x ≠ 0x00#8) (h1 : x ≠ 0x01#8) (w : BitVector) :
    manchesterEncodeFrom m (v ++ x :: w) = .error ⟨.manchesterInvalidBit, m + v.length⟩ := by
  induction v generalizing m with
  | nil => rw [List.nil_append, manchesterEncodeFrom, if_neg h0, if_neg h1]; rfl
  | cons y v ih =>
    rw [allBits_cons, Bool.and_eq_true, isBit_iff] at hv
    obtain ⟨hy, hrest⟩ := hv
    have hpos : m + (y :: v).length = m + 1 + v.length := by rw [List.length_cons]; omega
    rw [List.cons_append, manchesterEncodeFrom, ih (m + 1) hrest, hpos]
    obtain rfl | rfl := hy
    · rfl
    · rfl

/-- Two different bits are the symbol of the second (R81). -/
theorem manchesterPair_of_ne {a c : Byte} (ha : isBit a = true) (hc : isBit c = true) (hne : a ≠ c) :
    manchesterPair c = [a, c] := by
  obtain rfl | rfl := (isBit_iff a).mp ha <;> obtain rfl | rfl := (isBit_iff c).mp hc
  · exact absurd rfl hne
  · rfl
  · rfl
  · exact absurd rfl hne

/-- A symbol is the symbol of its second element, which is a bit (R81). -/
theorem manchesterPair_of_mem {a c : Byte} (h : (a, c) ∈ [(0x01#8, 0x00#8), (0x00#8, 0x01#8)]) :
    isBit c = true ∧ manchesterPair c = [a, c] := by
  obtain ⟨rfl, rfl⟩ | ⟨rfl, rfl⟩ : (a = 0x01#8 ∧ c = 0x00#8) ∨ (a = 0x00#8 ∧ c = 0x01#8) := by simpa using h
  · exact ⟨rfl, rfl⟩
  · exact ⟨rfl, rfl⟩

/-- The bit of a symbol by the symbol's first element (R151). -/
theorem second_of_mem {a c : Byte} (h : (a, c) ∈ [(0x01#8, 0x00#8), (0x00#8, 0x01#8)]) :
    c = if a = 0x01#8 then 0x00#8 else 0x01#8 := by
  obtain ⟨rfl, rfl⟩ | ⟨rfl, rfl⟩ : (a = 0x01#8 ∧ c = 0x00#8) ∨ (a = 0x00#8 ∧ c = 0x01#8) := by simpa using h
  · rfl
  · rfl

theorem manchesterDecodeFrom_invalidBit (pos : Nat) {a c : Byte} (h : ¬ (isBit a = true ∧ isBit c = true))
    (w : BitVector) : manchesterDecodeFrom pos (a :: c :: w) = .error ⟨.manchesterInvalidBit, pos⟩ := by
  have hbad : (!isBit a || !isBit c) = true := by_contra fun hgood => h (by simpa using hgood)
  rw [manchesterDecodeFrom, if_pos hbad]

theorem manchesterDecodeFrom_invalidTransition (pos : Nat) {a c : Byte}
    (h : (a, c) ∈ [(0x00#8, 0x00#8), (0x01#8, 0x01#8)]) (w : BitVector) :
    manchesterDecodeFrom pos (a :: c :: w) = .error ⟨.manchesterInvalidTransition, pos⟩ := by
  obtain ⟨rfl, rfl⟩ | ⟨rfl, rfl⟩ : (a = 0x00#8 ∧ c = 0x00#8) ∨ (a = 0x01#8 ∧ c = 0x01#8) := by simpa using h
  · rfl
  · rfl

/-- What the decoder's loop accepts is the symbols of its answer, which is a vector of bits. -/
theorem eq_flatMap_of_manchesterDecodeFrom {pos : Nat} {w v : BitVector} (h : manchesterDecodeFrom pos w = .ok v) :
    allBits v = true ∧ w = v.flatMap manchesterPair := by
  induction pos, w using manchesterDecodeFrom.induct generalizing v with
  | case1 pos a c w hbad => rw [manchesterDecodeFrom, if_pos hbad] at h; cases h
  | case2 pos c w hbad => rw [manchesterDecodeFrom, if_neg hbad, if_pos rfl] at h; cases h
  | case3 pos a c w hbad hne ih =>
    obtain ⟨ha, hc⟩ : isBit a = true ∧ isBit c = true := by simpa using hbad
    have hpair := manchesterPair_of_ne ha hc hne
    have hstep := manchesterDecodeFrom_pair_append pos hc w
    rw [hpair] at hstep
    replace h := hstep.symm.trans h
    cases hrest : manchesterDecodeFrom (pos + 2) w with
    | error e => rw [hrest] at h; cases h
    | ok u =>
      rw [hrest] at h
      cases h
      obtain ⟨hbits, rfl⟩ := ih hrest
      exact ⟨by rw [allBits_cons, hc, hbits]; rfl, by rw [List.flatMap_cons, hpair]; rfl⟩
  | case4 => cases h
  | case5 => cases h; exact ⟨rfl, rfl⟩

/-- What the decoder accepts is the symbols of its answer, which is a vector of bits (R153). -/
theorem eq_flatMap_of_manchesterDecode {w v : BitVector} (h : manchesterDecode w = .ok v) :
    allBits v = true ∧ w = v.flatMap manchesterPair := by
  unfold manchesterDecode at h
  split_ifs at h
  exact eq_flatMap_of_manchesterDecodeFrom h

/-- Behind symbols the decoder's loop fails as it fails from there on. -/
theorem manchesterDecodeFrom_append_error (pos : Nat) {v : BitVector} (hv : allBits v = true) {w : BitVector}
    {e : CommandError} (hw : manchesterDecodeFrom (pos + 2 * v.length) w = .error e) :
    manchesterDecodeFrom pos (v.flatMap manchesterPair ++ w) = .error e := by
  induction v generalizing pos with
  | nil => exact hw
  | cons x v ih =>
    rw [allBits_cons, Bool.and_eq_true] at hv
    obtain ⟨hx, hrest⟩ := hv
    have hpos : pos + 2 * (x :: v).length = pos + 2 + 2 * v.length := by rw [List.length_cons]; omega
    rw [List.flatMap_cons, List.append_assoc, manchesterDecodeFrom_pair_append pos hx, ih (pos + 2) hrest (hpos ▸ hw)]
    rfl

theorem manchesterDecode_odd {w : BitVector} (h : w.length % 2 = 1) :
    manchesterDecode w = .error ⟨.manchesterMisalignedInput, 0⟩ := if_pos h

theorem manchesterDecode_even {w : BitVector} (h : w.length % 2 = 0) :
    manchesterDecode w = manchesterDecodeFrom 0 w := if_neg (by omega)

end Sys2Proof.Machine

/-! PROOFS. The operand of a Manchester command by its elements, and what completing one leaves (R152, R154). -/

namespace Sys2Proof.Machine

theorem Memory.readVec_add (m : Memory) (base j k : Nat) :
    m.readVec base (j + k) = m.readVec base j ++ m.readVec (base + j) k := by
  simp [Memory.readVec, List.range_add, Nat.add_assoc]

theorem Memory.readVec_cons (m : Memory) (base n : Nat) :
    m.readVec base (n + 1) = m.read base :: m.readVec (base + 1) n := by
  rw [Nat.add_comm n 1, Memory.readVec_add]
  rfl

theorem Memory.readVec_getElem? (m : Memory) (base : Nat) {n i : Nat} (hi : i < n) :
    (m.readVec base n)[i]? = some (m.read (base + i)) := by
  simp [Memory.readVec, hi]

theorem Memory.allBits_readVec {m : Memory} {base n : Nat}
    (h : ∀ i, i < n → m.read (base + i) = 0x00#8 ∨ m.read (base + i) = 0x01#8) :
    allBits (m.readVec base n) = true := by
  simpa [allBits, Memory.readVec, isBit_iff] using h

/-- The second elements of the first h pairs of a range; of a symbol, the bit that it stands for (R81). -/
def Memory.readSeconds (m : Memory) (base h : Nat) : BitVector := (List.range h).map fun k => m.read (base + 2 * k + 1)

@[simp] theorem Memory.length_readSeconds (m : Memory) (base h : Nat) : (m.readSeconds base h).length = h := by
  simp [Memory.readSeconds]

theorem Memory.readSeconds_getElem? (m : Memory) (base : Nat) {h k : Nat} (hk : k < h) :
    (m.readSeconds base h)[k]? = some (m.read (base + 2 * k + 1)) := by
  simp [Memory.readSeconds, hk]

/-- A range of symbols holds the symbols of their second elements, which are bits. -/
theorem Memory.readVec_eq_flatMap {m : Memory} {base h : Nat}
    (hsym : ∀ k, k < h → (m.read (base + 2 * k), m.read (base + 2 * k + 1)) ∈ [(0x01#8, 0x00#8), (0x00#8, 0x01#8)]) :
    allBits (m.readSeconds base h) = true ∧ m.readVec base (2 * h) = (m.readSeconds base h).flatMap manchesterPair := by
  induction h with
  | zero => exact ⟨rfl, rfl⟩
  | succ h ih =>
    obtain ⟨hbits, hvec⟩ := ih fun k hk => hsym k (by omega)
    obtain ⟨hbit, hpair⟩ := manchesterPair_of_mem (hsym h (by omega))
    have hsnoc : m.readSeconds base (h + 1) = m.readSeconds base h ++ [m.read (base + 2 * h + 1)] := by
      simp [Memory.readSeconds, List.range_succ]
    rw [hsnoc, List.flatMap_append, ← hvec, List.flatMap_singleton, hpair]
    exact ⟨by rw [allBits_append, hbits, allBits_cons, hbit]; rfl, Memory.readVec_add m base (2 * h) 2⟩

/-- Within the capacity a Manchester command completes what its coder answers on IN[0..IN_LEN). -/
theorem exec_manchesterEncode_of_le {s : State} (h : s.inLen.toNat ≤ 256) :
    exec .manchesterEncode s =
      .next (s.finishSingle (manchesterEncode (s.mem.readVec inBase s.inLen.toNat))) := by
  rw [exec_manchesterEncode, s.inputVector_ok h]
  rfl

theorem exec_manchesterDecode_of_le {s : State} (h : s.inLen.toNat ≤ 256) :
    exec .manchesterDecode s =
      .next (s.finishSingle (manchesterDecode (s.mem.readVec inBase s.inLen.toNat))) := by
  rw [exec_manchesterDecode, s.inputVector_ok h]
  rfl

/-- MANCHESTER_ENCODE on bits completes with their symbols. -/
theorem exec_manchesterEncode_bits {s : State} (hle : s.inLen.toNat ≤ 256)
    (hbits : allBits (s.mem.readVec inBase s.inLen.toNat) = true) :
    exec .manchesterEncode s =
      .next (s.finishSingle (.ok ((s.mem.readVec inBase s.inLen.toNat).flatMap manchesterPair))) := by
  rw [exec_manchesterEncode_of_le hle, manchesterEncode, manchesterEncodeFrom_eq_flatMap 0 hbits]

/-- MANCHESTER_ENCODE reports the first element that is no bit. -/
theorem exec_manchesterEncode_invalidBit {s : State} (hle : s.inLen.toNat ≤ 256) {m : Nat} (hm : m < s.inLen.toNat)
    (hbits : allBits (s.mem.readVec inBase m) = true) (h0 : s.mem.read (inBase + m) ≠ 0x00#8)
    (h1 : s.mem.read (inBase + m) ≠ 0x01#8) :
    exec .manchesterEncode s = .next (s.raise ⟨.manchesterInvalidBit, m⟩) := by
  obtain ⟨n, hn⟩ : ∃ n, s.inLen.toNat = m + (n + 1) := ⟨s.inLen.toNat - m - 1, by omega⟩
  rw [exec_manchesterEncode_of_le hle, hn, Memory.readVec_add, Memory.readVec_cons, manchesterEncode,
    manchesterEncodeFrom_invalidBit 0 hbits h0 h1, Memory.length_readVec, Nat.zero_add, State.finishSingle_error]

/-- MANCHESTER_DECODE on symbols completes with the bits that they stand for. -/
theorem exec_manchesterDecode_symbols {s : State} {h : Nat} (hle : s.inLen.toNat ≤ 256) (hlen : s.inLen.toNat = 2 * h)
    (hsym : ∀ k, k < h →
      (s.mem.read (inBase + 2 * k), s.mem.read (inBase + 2 * k + 1)) ∈ [(0x01#8, 0x00#8), (0x00#8, 0x01#8)]) :
    exec .manchesterDecode s = .next (s.finishSingle (.ok (s.mem.readSeconds inBase h))) := by
  obtain ⟨hbits, hvec⟩ := Memory.readVec_eq_flatMap hsym
  rw [exec_manchesterDecode_of_le hle, hlen, hvec, manchesterDecode_flatMap_pair hbits]

/-- Behind symbols MANCHESTER_DECODE reports the error of the first pair that is none. -/
theorem exec_manchesterDecode_error {s : State} (hle : s.inLen.toNat ≤ 256) (heven : s.inLen.toNat % 2 = 0) {k : Nat}
    (hk : k < s.inLen.toNat / 2)
    (hsym : ∀ j, j < k →
      (s.mem.read (inBase + 2 * j), s.mem.read (inBase + 2 * j + 1)) ∈ [(0x01#8, 0x00#8), (0x00#8, 0x01#8)])
    {e : CommandError}
    (herr : ∀ w, manchesterDecodeFrom (2 * k)
      (s.mem.read (inBase + 2 * k) :: s.mem.read (inBase + 2 * k + 1) :: w) = .error e) :
    exec .manchesterDecode s = .next (s.raise e) := by
  obtain ⟨hbits, hvec⟩ := Memory.readVec_eq_flatMap hsym
  obtain ⟨n, hn⟩ : ∃ n, s.inLen.toNat = 2 * k + (n + 1 + 1) := ⟨s.inLen.toNat - 2 * k - 2, by omega⟩
  have hfail : manchesterDecodeFrom 0 (s.mem.readVec inBase s.inLen.toNat) = .error e := by
    rw [hn, Memory.readVec_add, Memory.readVec_cons, Memory.readVec_cons, hvec]
    refine manchesterDecodeFrom_append_error 0 hbits ?_
    rw [Memory.length_readSeconds, Nat.zero_add]
    exact herr _
  rw [exec_manchesterDecode_of_le hle, manchesterDecode_even (by rwa [Memory.length_readVec]), hfail,
    State.finishSingle_error]

/-- What completing a command with the vector v leaves: it in OUT0, its length in OUT0_LEN, a cleared report, and
everything else as it was (R152, R154). -/
structure CompletedSingle (s t : State) (v : BitVector) : Prop where
  element : ∀ {i : Nat}, i < v.length → v[i]? = some (t.mem.read (out0Base + i))
  length : t.out0Len.toNat = v.length
  state : t = { s with mem := t.mem, out0Len := t.out0Len, errCode := 0x00#8, errPos := 0x0000#16 }
  frame : ∀ a, (a < out0Base ∨ out0Base + v.length ≤ a) → t.mem.read a = s.mem.read a

theorem finishSingle_completed {s : State} (hs : s.mem.wf = true) {v : BitVector} (hv : v.length ≤ Config.outCap) :
    CompletedSingle s (s.finishSingle (.ok v)) v where
  element {i} hi := by
    have hfit : out0Base + v.length ≤ windowEnd := by simp only [Config.outCap, out0Base, windowEnd] at *; omega
    rw [List.getElem?_eq_getElem hi]
    exact congrArg some (Memory.read_writeVec_inside v hs (by decide) hfit hi).symm
  length := toNat_storedLength hv
  state := rfl
  frame _ ha := Memory.read_writeVec_outside v _ ha

end Sys2Proof.Machine

/-! PROOFS. The statements about the Manchester coder and its commands, settled. -/

namespace Sys2Proof.Proofs

open Sys2Proof.Machine

/-- Settles O37: the encoder answers the symbols of the bits, and the decoder accepts nothing but symbols of bits. -/
theorem manchesterCodingRoundTrips : Obligations.ManchesterCodingRoundTrips := by
  refine ⟨fun v hv => ?_, fun w v h => ?_⟩
  · rw [manchesterEncode, manchesterEncodeFrom_eq_flatMap 0 hv]
    exact manchesterDecode_flatMap_pair hv
  · obtain ⟨hbits, rfl⟩ := eq_flatMap_of_manchesterDecode h
    exact manchesterEncodeFrom_eq_flatMap 0 hbits

/-- Settles O42: on bits the command completes with their symbols; too long an operand and the first element that is
no bit are the two errors. -/
theorem manchesterEncodeCommand : Obligations.ManchesterEncodeCommand := by
  refine fun s => ⟨fun hs hle hin => ?_, fun hlong => ?_, fun m hle hm hin h0 h1 => ?_⟩
  · have hlen : ((s.mem.readVec inBase s.inLen.toNat).flatMap manchesterPair).length = 2 * s.inLen.toNat := by
      simp [length_manchesterPair, Nat.mul_comm]
    obtain ⟨helement, hlength, hstate, hframe⟩ :=
      finishSingle_completed hs (hlen.trans_le (by simp only [Config.outCap]; omega))
    rw [hlen] at helement hlength hframe
    refine ⟨_, exec_manchesterEncode_bits hle (Memory.allBits_readVec hin), fun m hm => ?_, hlength, hstate, hframe⟩
    have hpair := flatMap_manchesterPair_getElem? (hm.trans_eq (Memory.length_readVec s.mem inBase _).symm)
    rw [helement (by omega), helement (by omega), Memory.readVec_getElem? _ _ hm, ← Nat.add_assoc] at hpair
    exact ⟨fun h0 => by simpa [h0] using hpair, fun h1 => by simpa [h1] using hpair⟩
  · rw [exec_manchesterEncode, s.inputVector_error hlong]
    rfl
  · exact exec_manchesterEncode_invalidBit hle hm (Memory.allBits_readVec hin) h0 h1

/-- Settles O43: on symbols the command completes with their bits; the errors are too long an operand, an odd one, and
the first pair that is no symbol, by its two elements. -/
theorem manchesterDecodeCommand : Obligations.ManchesterDecodeCommand := by
  refine fun s => ⟨fun hs hle heven hsym => ?_, fun hlong => ?_, fun hle hodd => ?_, fun k hle heven hk hsym =>
    ⟨fun hbad => ?_, fun heq => ?_⟩⟩
  · have hlen := Memory.length_readSeconds s.mem inBase (s.inLen.toNat / 2)
    obtain ⟨helement, hlength, hstate, hframe⟩ :=
      finishSingle_completed hs (hlen.trans_le (by simp only [Config.outCap]; omega))
    rw [hlen] at helement hlength hframe
    refine ⟨_, exec_manchesterDecode_symbols hle (by omega) hsym, fun k hk => ?_, hlength, hstate, hframe⟩
    have hbit := helement hk
    rw [Memory.readSeconds_getElem? _ _ hk] at hbit
    exact (Option.some.inj hbit).symm.trans (second_of_mem (hsym k hk))
  · rw [exec_manchesterDecode, s.inputVector_error hlong]
    rfl
  · rw [exec_manchesterDecode_of_le hle, manchesterDecode_odd (by rwa [Memory.length_readVec])]
    rfl
  · refine exec_manchesterDecode_error hle heven hk hsym (e := ⟨.manchesterInvalidBit, 2 * k⟩)
      (manchesterDecodeFrom_invalidBit _ ?_)
    simpa [isBit_iff] using hbad
  · exact exec_manchesterDecode_error hle heven hk hsym (e := ⟨.manchesterInvalidTransition, 2 * k⟩)
      (manchesterDecodeFrom_invalidTransition _ heq)

end Sys2Proof.Proofs

/-! PROOFS. What a command that ends in an error leaves (R171). -/

namespace Sys2Proof.Machine

/-- A command that leaves a nonzero ERR_CODE has written the report only: the other two effects clear it. -/
theorem CommandEffect.eq_of_errCode_ne_zero {s t : State} (h : CommandEffect s t) (hcode : t.errCode ≠ 0x00#8) :
    t = { s with errCode := t.errCode, errPos := t.errPos } := by
  cases h with
  | error => rfl
  | single => exact absurd (State.clearError_errCode _) hcode
  | pair => exact absurd (State.clearError_errCode _) hcode

end Sys2Proof.Machine

/-! PROOFS. The statement about the precise report, settled. -/

namespace Sys2Proof.Proofs

open Sys2Proof.Machine

/-- Settles O48: of the effects of a CMD write only the error leaves a nonzero ERR_CODE. -/
theorem failedCommandsWriteOnlyTheReport : Obligations.FailedCommandsWriteOnlyTheReport := by
  refine ⟨fun _ _ => rfl, fun s t c rest hp h hcode => ?_⟩
  have hwrite : commandWrite c { s with pending := rest } = .next t := (step_write hp).symm.trans h
  exact (commandWrite_effect hwrite).eq_of_errCode_ne_zero hcode

end Sys2Proof.Proofs

/-! PROOFS. What a reset event does (R191). -/

namespace Sys2Proof.Machine

theorem step_reset {s : State} {rest : List HostEvent} (h : s.pending = .reset :: rest) :
    step s = .next (State.resetBlock { s with pending := rest }) :=
  step_cons h

/-- A reset keeps nothing of the state but the host's two lists. -/
theorem State.resetBlock_eq (s : State) :
    s.resetBlock = { State.reset with pending := s.pending, returned := s.returned } := rfl

end Sys2Proof.Machine

/-! PROOFS. The statement about the reset event, settled. -/

namespace Sys2Proof.Proofs

open Sys2Proof.Machine

/-- Settles O7: the reset's case of the step, with the event already taken off the pending list. -/
theorem resetEventGivesTheResetState : Obligations.ResetEventGivesTheResetState := by
  intro s rest hp
  rw [step_reset hp, State.resetBlock_eq]

end Sys2Proof.Proofs
